-- ==== Sys2Proof/Word.lean ====
section
/-! DEFINITION. The word types of the CORE: a byte, a 16-bit word, a register number (00_scope.md rules R8 and R11). -/

namespace Sys2Proof

/-- An 8-bit value: a general register, a timer or a memory byte (00_scope.md rule R8, `REG_W`, `TIMER_W`). -/
abbrev Byte := BitVec 8

/-- A 16-bit value: PC, I, a stack slot or an instruction word (00_scope.md rule R8, `PC_W`, `I_W`, `INSN_W`). -/
abbrev Word := BitVec 16

/-- A 12-bit address or immediate, the field `nnn` (30_encoding.md rule R71). -/
abbrev Addr12 := BitVec 12

/-- A register number 0..15, named by a 4-bit field (10_state.md rule R21). -/
abbrev Reg := Fin 16

end Sys2Proof
end

