-- ==== Sys2Proof/Config.lean ====
section
/-! DEFINITION. What is fixed for the machine: the parameters of 00_scope.md rules R8 and R9, and the one free value,
the random byte. The parameters of R9 are the fields of `Params`, an argument of the whole machine, and `Config.params`
holds the values the spec decides for them (log 2 to log 6). -/

namespace Sys2Proof

/-- Which register 8xy6 and 8xyE shift (00_scope.md rule R9, `SHIFT_SOURCE`). -/
inductive ShiftSource where
  /-- Vx is shifted and Vy is ignored. -/
  | x
  /-- Vy is shifted into Vx. -/
  | y
  deriving DecidableEq, Repr

/-- What VF means after 8xy5 and 8xy7 (00_scope.md rule R9, `SUB_FLAG_SENSE`). -/
inductive SubFlagSense where
  /-- VF = 1 when a borrow occurs. -/
  | borrow
  /-- VF = 1 when no borrow occurs. -/
  | notBorrow
  deriving DecidableEq, Repr

namespace Config

/-- `MEM_SIZE`: bytes of memory (00_scope.md rule R8). -/
abbrev memSize : Nat := 4096

/-- `STACK_DEPTH`: slots of the return stack (00_scope.md rule R8). -/
abbrev stackDepth : Nat := 16

/-- `FONT_GLYPHS`: 16 glyphs of 5 bytes (00_scope.md rule R8). -/
abbrev fontBytes : Nat := 80

/-- `DISPLAY_W`, decided 64 (00_scope.md rule R9, D4). DESIGN CHOICE of the spec, log 3. -/
abbrev displayW : Nat := 64

/-- `DISPLAY_H`, decided 32 (00_scope.md rule R9, D4). DESIGN CHOICE of the spec, log 3. -/
abbrev displayH : Nat := 32

/-- `LOAD_ADDR`, decided 0x200 (00_scope.md rule R9, D3). DESIGN CHOICE of the spec, log 2. -/
def loadAddr : Word := 0x200#16

/-- `SHIFT_SOURCE`, decided `X` (00_scope.md rule R9, D6). DESIGN CHOICE of the spec, log 4. -/
def shiftSource : ShiftSource := .x

/-- `SUB_FLAG_SENSE`, decided `BORROW` (00_scope.md rule R9, D7). DESIGN CHOICE of the spec, log 5. -/
def subFlagSense : SubFlagSense := .borrow

/-- The free value of this hardware: the byte the random input shows at the n-th draw. It has no body, so nothing can
be proved about it: "a free draw of 8 bits, taken once per Cxnn execution, under no law" (D24; 42_alu.md rule R142;
93_implementation_defined.md X3). DESIGN CHOICE of form, log 6. -/
opaque randomByte : Nat → Byte

end Config

/-- The parameters the source leaves open: "The model takes each one as an argument" (00_scope.md rule R9). The machine's
state, its meanings, its reset and its step stand over any of them. The font glyph bytes, the last row of that table, are
the argument of INSTALL_FONT. A display has at least one pixel (log 3). -/
structure Params where
  /-- `LOAD_ADDR`. -/
  loadAddr : Word
  /-- `DISPLAY_W`. -/
  displayW : Nat
  /-- `DISPLAY_H`. -/
  displayH : Nat
  /-- `SHIFT_SOURCE`. -/
  shiftSource : ShiftSource
  /-- `SUB_FLAG_SENSE`. -/
  subFlagSense : SubFlagSense
  /-- The `RandomByte` source: the byte the input shows at the n-th draw. -/
  randomByte : Nat → Byte
  displayW_pos : 0 < displayW
  displayH_pos : 0 < displayH

/-- The values the spec decides (00_scope.md rule R9, the column "decided value"); the random byte stays free. -/
abbrev Config.params : Params where
  loadAddr := Config.loadAddr
  displayW := Config.displayW
  displayH := Config.displayH
  shiftSource := Config.shiftSource
  subFlagSense := Config.subFlagSense
  randomByte := Config.randomByte
  displayW_pos := by decide
  displayH_pos := by decide

end Sys2Proof
end

