-- ==== Sys2Proof/Syntax.lean ====
section
/-! DEFINITION. The instructions: one constructor per row of spec/opcode_table.json, in the table's order, with the
operands the row's fields give (30_encoding.md rules R72 to R74). A field's type is its range, so an operand outside
its range cannot be written down. Constructor names follow the spec's `decode` (30_encoding.md rule R77). -/

namespace Sys2Proof

inductive Instr where
  /-- `00E0`, clear the framebuffer (44_display.md rule R180). -/
  | cls
  /-- `00EE`, return from subroutine (41_control_flow.md rule R110). -/
  | ret
  /-- `1nnn`, jump (41_control_flow.md rule R111). -/
  | jp (nnn : Addr12)
  /-- `2nnn`, call (41_control_flow.md rule R112). -/
  | call (nnn : Addr12)
  /-- `3xnn`, skip if Vx = nn (41_control_flow.md rule R113). -/
  | seImm (x : Reg) (nn : Byte)
  /-- `4xnn`, skip if Vx ≠ nn (41_control_flow.md rule R114). -/
  | sneImm (x : Reg) (nn : Byte)
  /-- `5xy0`, skip if Vx = Vy (41_control_flow.md rule R115). -/
  | seReg (x y : Reg)
  /-- `6xnn`, load an immediate (42_alu.md rule R130). -/
  | ldImm (x : Reg) (nn : Byte)
  /-- `7xnn`, add an immediate (42_alu.md rule R131). -/
  | addImm (x : Reg) (nn : Byte)
  /-- `8xy0`, copy (42_alu.md rule R133). -/
  | ldReg (x y : Reg)
  /-- `8xy1`, bitwise OR (42_alu.md rule R134). -/
  | orReg (x y : Reg)
  /-- `8xy2`, bitwise AND (42_alu.md rule R135). -/
  | andReg (x y : Reg)
  /-- `8xy3`, bitwise XOR (42_alu.md rule R136). -/
  | xorReg (x y : Reg)
  /-- `8xy4`, add with carry out (42_alu.md rule R137). -/
  | addReg (x y : Reg)
  /-- `8xy5`, subtract Vx − Vy (42_alu.md rule R138). -/
  | sub (x y : Reg)
  /-- `8xy6`, shift right (42_alu.md rule R139). -/
  | shr (x y : Reg)
  /-- `8xy7`, subtract Vy − Vx (42_alu.md rule R140). -/
  | subn (x y : Reg)
  /-- `8xyE`, shift left (42_alu.md rule R141). -/
  | shl (x y : Reg)
  /-- `9xy0`, skip if Vx ≠ Vy (41_control_flow.md rule R116). -/
  | sneReg (x y : Reg)
  /-- `Annn`, load I (43_index_memory.md rule R160). -/
  | ldI (nnn : Addr12)
  /-- `Bnnn`, jump to nnn + V0 (41_control_flow.md rule R117). -/
  | jpV0 (nnn : Addr12)
  /-- `Cxnn`, random byte AND nn (42_alu.md rule R142). -/
  | rnd (x : Reg) (nn : Byte)
  /-- `Dxyn`, draw a sprite of n rows (44_display.md rule R181). -/
  | drw (x y : Reg) (n : Fin 16)
  /-- `Ex9E`, skip if the key is pressed (45_keys_timers.md rule R190). -/
  | skp (x : Reg)
  /-- `ExA1`, skip if the key is not pressed (45_keys_timers.md rule R191). -/
  | sknp (x : Reg)
  /-- `Fx07`, read the delay timer (45_keys_timers.md rule R192). -/
  | ldXDT (x : Reg)
  /-- `Fx0A`, wait for a key (45_keys_timers.md rule R193). -/
  | ldXK (x : Reg)
  /-- `Fx15`, set the delay timer (45_keys_timers.md rule R194). -/
  | ldDTX (x : Reg)
  /-- `Fx18`, set the sound timer (45_keys_timers.md rule R195). -/
  | ldSTX (x : Reg)
  /-- `Fx1E`, add Vx to I (43_index_memory.md rule R161). -/
  | addIX (x : Reg)
  /-- `Fx29`, address of a glyph (43_index_memory.md rule R162). -/
  | ldFX (x : Reg)
  /-- `Fx33`, store binary-coded decimal (43_index_memory.md rule R163). -/
  | ldBX (x : Reg)
  /-- `Fx55`, store V0..Vx (43_index_memory.md rule R164). -/
  | ldMemX (x : Reg)
  /-- `Fx65`, load V0..Vx (43_index_memory.md rule R165). -/
  | ldXMem (x : Reg)
  deriving DecidableEq, Repr

end Sys2Proof
end

