-- ==== Sys2Proof/WellFormed.lean ====
section
/-! DEFINITION. Which instruction words are legal. The fields of `Instr` carry their ranges in their types, so every
term of `Instr` is well formed (log 27); what can be ill formed is a WORD, and the check here is the spec's opcode
table: a word is legal when it matches a row (30_encoding.md rules R76 to R79). The decoder does not use the table,
so that the two can be held against each other. -/

namespace Sys2Proof

/-- One row of spec/opcode_table.json: its mnemonic, match and mask. -/
structure OpcodeRow where
  mnemonic : String
  pattern  : Word
  mask     : Word
  deriving DecidableEq, Repr

/-- A word matches a row when its masked bits are the row's pattern. -/
def OpcodeRow.admits (r : OpcodeRow) (w : Word) : Bool := w &&& r.mask == r.pattern

/-- A row says something: it fixes no bit that its mask leaves out. -/
def OpcodeRow.wf (r : OpcodeRow) : Bool := r.pattern &&& r.mask == r.pattern

/-- The 34 rows of spec/opcode_table.json, in its order. -/
def opcodeTable : List OpcodeRow :=
 [
  ⟨"00E0", 0x00E0#16, 0xFFFF#16⟩,
  ⟨"00EE", 0x00EE#16, 0xFFFF#16⟩,
  ⟨"1nnn", 0x1000#16, 0xF000#16⟩,
  ⟨"2nnn", 0x2000#16, 0xF000#16⟩,
  ⟨"3xnn", 0x3000#16, 0xF000#16⟩,
  ⟨"4xnn", 0x4000#16, 0xF000#16⟩,
  ⟨"5xy0", 0x5000#16, 0xF00F#16⟩,
  ⟨"6xnn", 0x6000#16, 0xF000#16⟩,
  ⟨"7xnn", 0x7000#16, 0xF000#16⟩,
  ⟨"8xy0", 0x8000#16, 0xF00F#16⟩,
  ⟨"8xy1", 0x8001#16, 0xF00F#16⟩,
  ⟨"8xy2", 0x8002#16, 0xF00F#16⟩
 ] ++ [
  ⟨"8xy3", 0x8003#16, 0xF00F#16⟩,
  ⟨"8xy4", 0x8004#16, 0xF00F#16⟩,
  ⟨"8xy5", 0x8005#16, 0xF00F#16⟩,
  ⟨"8xy6", 0x8006#16, 0xF00F#16⟩,
  ⟨"8xy7", 0x8007#16, 0xF00F#16⟩,
  ⟨"8xyE", 0x800E#16, 0xF00F#16⟩,
  ⟨"9xy0", 0x9000#16, 0xF00F#16⟩,
  ⟨"Annn", 0xA000#16, 0xF000#16⟩,
  ⟨"Bnnn", 0xB000#16, 0xF000#16⟩,
  ⟨"Cxnn", 0xC000#16, 0xF000#16⟩,
  ⟨"Dxyn", 0xD000#16, 0xF000#16⟩
 ] ++ [
  ⟨"Ex9E", 0xE09E#16, 0xF0FF#16⟩,
  ⟨"ExA1", 0xE0A1#16, 0xF0FF#16⟩,
  ⟨"Fx07", 0xF007#16, 0xF0FF#16⟩,
  ⟨"Fx0A", 0xF00A#16, 0xF0FF#16⟩,
  ⟨"Fx15", 0xF015#16, 0xF0FF#16⟩,
  ⟨"Fx18", 0xF018#16, 0xF0FF#16⟩,
  ⟨"Fx1E", 0xF01E#16, 0xF0FF#16⟩,
  ⟨"Fx29", 0xF029#16, 0xF0FF#16⟩,
  ⟨"Fx33", 0xF033#16, 0xF0FF#16⟩,
  ⟨"Fx55", 0xF055#16, 0xF0FF#16⟩,
  ⟨"Fx65", 0xF065#16, 0xF0FF#16⟩
 ]

/-- A word is legal exactly when some row admits it (30_encoding.md rules R78 and R79). -/
def wordLegal (w : Word) : Bool := opcodeTable.any fun r => r.admits w

/-- The row of the opcode table an instruction stands for. -/
def Instr.row : Instr → OpcodeRow
  | .cls => ⟨"00E0", 0x00E0#16, 0xFFFF#16⟩
  | .ret => ⟨"00EE", 0x00EE#16, 0xFFFF#16⟩
  | .jp _ => ⟨"1nnn", 0x1000#16, 0xF000#16⟩
  | .call _ => ⟨"2nnn", 0x2000#16, 0xF000#16⟩
  | .seImm _ _ => ⟨"3xnn", 0x3000#16, 0xF000#16⟩
  | .sneImm _ _ => ⟨"4xnn", 0x4000#16, 0xF000#16⟩
  | .seReg _ _ => ⟨"5xy0", 0x5000#16, 0xF00F#16⟩
  | .ldImm _ _ => ⟨"6xnn", 0x6000#16, 0xF000#16⟩
  | .addImm _ _ => ⟨"7xnn", 0x7000#16, 0xF000#16⟩
  | .ldReg _ _ => ⟨"8xy0", 0x8000#16, 0xF00F#16⟩
  | .orReg _ _ => ⟨"8xy1", 0x8001#16, 0xF00F#16⟩
  | .andReg _ _ => ⟨"8xy2", 0x8002#16, 0xF00F#16⟩
  | .xorReg _ _ => ⟨"8xy3", 0x8003#16, 0xF00F#16⟩
  | .addReg _ _ => ⟨"8xy4", 0x8004#16, 0xF00F#16⟩
  | .sub _ _ => ⟨"8xy5", 0x8005#16, 0xF00F#16⟩
  | .shr _ _ => ⟨"8xy6", 0x8006#16, 0xF00F#16⟩
  | .subn _ _ => ⟨"8xy7", 0x8007#16, 0xF00F#16⟩
  | .shl _ _ => ⟨"8xyE", 0x800E#16, 0xF00F#16⟩
  | .sneReg _ _ => ⟨"9xy0", 0x9000#16, 0xF00F#16⟩
  | .ldI _ => ⟨"Annn", 0xA000#16, 0xF000#16⟩
  | .jpV0 _ => ⟨"Bnnn", 0xB000#16, 0xF000#16⟩
  | .rnd _ _ => ⟨"Cxnn", 0xC000#16, 0xF000#16⟩
  | .drw _ _ _ => ⟨"Dxyn", 0xD000#16, 0xF000#16⟩
  | .skp _ => ⟨"Ex9E", 0xE09E#16, 0xF0FF#16⟩
  | .sknp _ => ⟨"ExA1", 0xE0A1#16, 0xF0FF#16⟩
  | .ldXDT _ => ⟨"Fx07", 0xF007#16, 0xF0FF#16⟩
  | .ldXK _ => ⟨"Fx0A", 0xF00A#16, 0xF0FF#16⟩
  | .ldDTX _ => ⟨"Fx15", 0xF015#16, 0xF0FF#16⟩
  | .ldSTX _ => ⟨"Fx18", 0xF018#16, 0xF0FF#16⟩
  | .addIX _ => ⟨"Fx1E", 0xF01E#16, 0xF0FF#16⟩
  | .ldFX _ => ⟨"Fx29", 0xF029#16, 0xF0FF#16⟩
  | .ldBX _ => ⟨"Fx33", 0xF033#16, 0xF0FF#16⟩
  | .ldMemX _ => ⟨"Fx55", 0xF055#16, 0xF0FF#16⟩
  | .ldXMem _ => ⟨"Fx65", 0xF065#16, 0xF0FF#16⟩

end Sys2Proof
end

