-- ==== Sys2Proof/Decode.lean ====
section
/-! DEFINITION. The decoder and the encoder (30_encoding.md): fields of a word, the total decode function of rule R77,
decoding of a byte stream, the encoder written from the format table of rule R72, the assembler syntax of rule R81, and
the host's `decodeTableWord`. -/

namespace Sys2Proof

/-- Why bytes or a word are not an instruction: too few bytes, or one of the six rows of illegal words of
30_encoding.md rule R78. Every one but `truncated` is the spec's `INVALID`. -/
inductive Reject where
  /-- Fewer than two bytes are left. -/
  | truncated
  /-- `0nnn` other than 00E0 and 00EE. -/
  | op0Unlisted
  /-- `5xyN`, N ≠ 0. -/
  | op5Unlisted
  /-- `8xyN`, N in 8..D or F. -/
  | op8Unlisted
  /-- `9xyN`, N ≠ 0. -/
  | op9Unlisted
  /-- `ExNN`, NN not 9E or A1. -/
  | opEUnlisted
  /-- `FxNN`, NN not one of the nine selectors. -/
  | opFUnlisted
  deriving DecidableEq, Repr

/-! ### Fields (30_encoding.md rule R71) -/

/-- `op`, bits 15..12. -/
def fieldOp (w : Word) : BitVec 4 := w.extractLsb' 12 4
/-- `x`, bits 11..8. -/
def fieldX (w : Word) : BitVec 4 := w.extractLsb' 8 4
/-- `y`, bits 7..4. -/
def fieldY (w : Word) : BitVec 4 := w.extractLsb' 4 4
/-- `n`, bits 3..0. -/
def fieldN (w : Word) : BitVec 4 := w.extractLsb' 0 4
/-- `nn`, bits 7..0. -/
def fieldNN (w : Word) : Byte := w.extractLsb' 0 8
/-- `nnn`, bits 11..0. -/
def fieldNNN (w : Word) : Addr12 := w.extractLsb' 0 12

/-- A 4-bit field as the register number (or row count) it names (30_encoding.md rule R74). -/
def nibbleIndex (b : BitVec 4) : Fin 16 := ⟨b.toNat, b.isLt⟩

/-- The 4 bits that name a register number (or row count). -/
def indexNibble (r : Fin 16) : BitVec 4 := BitVec.ofNat 4 r.val

/-- Two bytes as a big-endian word, high byte first (20_memory.md rule R54). -/
def bigEndian (hi lo : Byte) : Word := hi ++ lo

/-- The high byte of a word, the one at the lower address. -/
def highByte (w : Word) : Byte := w.extractLsb' 8 8

/-- The low byte of a word. -/
def lowByte (w : Word) : Byte := w.extractLsb' 0 8

/-! ### Decode (30_encoding.md rules R75 to R78) -/

/-- The 8 family, selected by `n`. -/
def decode8 (x y : Reg) (n : BitVec 4) : Except Reject Instr :=
  if n = 0x0#4 then .ok (.ldReg x y)
  else if n = 0x1#4 then .ok (.orReg x y)
  else if n = 0x2#4 then .ok (.andReg x y)
  else if n = 0x3#4 then .ok (.xorReg x y)
  else if n = 0x4#4 then .ok (.addReg x y)
  else if n = 0x5#4 then .ok (.sub x y)
  else if n = 0x6#4 then .ok (.shr x y)
  else if n = 0x7#4 then .ok (.subn x y)
  else if n = 0xE#4 then .ok (.shl x y)
  else .error .op8Unlisted

/-- The E family, selected by `nn`. -/
def decodeE (x : Reg) (nn : Byte) : Except Reject Instr :=
  if nn = 0x9E#8 then .ok (.skp x)
  else if nn = 0xA1#8 then .ok (.sknp x)
  else .error .opEUnlisted

/-- The F family, selected by `nn`. -/
def decodeF (x : Reg) (nn : Byte) : Except Reject Instr :=
  if nn = 0x07#8 then .ok (.ldXDT x)
  else if nn = 0x0A#8 then .ok (.ldXK x)
  else if nn = 0x15#8 then .ok (.ldDTX x)
  else if nn = 0x18#8 then .ok (.ldSTX x)
  else if nn = 0x1E#8 then .ok (.addIX x)
  else if nn = 0x29#8 then .ok (.ldFX x)
  else if nn = 0x33#8 then .ok (.ldBX x)
  else if nn = 0x55#8 then .ok (.ldMemX x)
  else if nn = 0x65#8 then .ok (.ldXMem x)
  else .error .opFUnlisted

/-- `decode(w)` of 30_encoding.md rule R77: a total function of the word alone; an `error` is the spec's `INVALID`. -/
def decode (w : Word) : Except Reject Instr :=
  let op := fieldOp w
  let x := nibbleIndex (fieldX w)
  let y := nibbleIndex (fieldY w)
  let n := fieldN w
  let nn := fieldNN w
  let nnn := fieldNNN w
  if op = 0x0#4 then
    if w = 0x00E0#16 then .ok .cls
    else if w = 0x00EE#16 then .ok .ret
    else .error .op0Unlisted
  else if op = 0x1#4 then .ok (.jp nnn)
  else if op = 0x2#4 then .ok (.call nnn)
  else if op = 0x3#4 then .ok (.seImm x nn)
  else if op = 0x4#4 then .ok (.sneImm x nn)
  else if op = 0x5#4 then (if n = 0#4 then .ok (.seReg x y) else .error .op5Unlisted)
  else if op = 0x6#4 then .ok (.ldImm x nn)
  else if op = 0x7#4 then .ok (.addImm x nn)
  else if op = 0x8#4 then decode8 x y n
  else if op = 0x9#4 then (if n = 0#4 then .ok (.sneReg x y) else .error .op9Unlisted)
  else if op = 0xA#4 then .ok (.ldI nnn)
  else if op = 0xB#4 then .ok (.jpV0 nnn)
  else if op = 0xC#4 then .ok (.rnd x nn)
  else if op = 0xD#4 then .ok (.drw x y (nibbleIndex n))
  else if op = 0xE#4 then decodeE x nn
  else decodeF x nn

/-- Decoding of a byte stream: one instruction and the bytes after it. An instruction is always two bytes, the high
byte first (30_encoding.md rule R70). -/
def decodeBytes : List Byte → Except Reject (Instr × List Byte)
  | hi :: lo :: rest =>
    match decode (bigEndian hi lo) with
    | .ok i => .ok (i, rest)
    | .error r => .error r
  | _ => .error .truncated

/-! ### Encode (30_encoding.md rule R72, the formats; opcode_table.json, the fixed bits) -/

/-- Format `A`: op, nnn. -/
def formatA (op : BitVec 4) (nnn : Addr12) : Word := op ++ nnn
/-- Formats `XK` and `XS`: op, x, and nn as an immediate or a sub-op byte. -/
def formatXK (op : BitVec 4) (x : Reg) (nn : Byte) : Word := op ++ (indexNibble x ++ nn : BitVec 12)
/-- Formats `XY` and `XYN`: op, x, y, and n as a sub-op or a row count. -/
def formatXY (op : BitVec 4) (x y : Reg) (n : BitVec 4) : Word :=
  op ++ (indexNibble x ++ (indexNibble y ++ n : BitVec 8) : BitVec 12)

/-- The word of an instruction. -/
def encode : Instr → Word
  | .cls => 0x00E0#16
  | .ret => 0x00EE#16
  | .jp nnn => formatA 0x1#4 nnn
  | .call nnn => formatA 0x2#4 nnn
  | .seImm x nn => formatXK 0x3#4 x nn
  | .sneImm x nn => formatXK 0x4#4 x nn
  | .seReg x y => formatXY 0x5#4 x y 0x0#4
  | .ldImm x nn => formatXK 0x6#4 x nn
  | .addImm x nn => formatXK 0x7#4 x nn
  | .ldReg x y => formatXY 0x8#4 x y 0x0#4
  | .orReg x y => formatXY 0x8#4 x y 0x1#4
  | .andReg x y => formatXY 0x8#4 x y 0x2#4
  | .xorReg x y => formatXY 0x8#4 x y 0x3#4
  | .addReg x y => formatXY 0x8#4 x y 0x4#4
  | .sub x y => formatXY 0x8#4 x y 0x5#4
  | .shr x y => formatXY 0x8#4 x y 0x6#4
  | .subn x y => formatXY 0x8#4 x y 0x7#4
  | .shl x y => formatXY 0x8#4 x y 0xE#4
  | .sneReg x y => formatXY 0x9#4 x y 0x0#4
  | .ldI nnn => formatA 0xA#4 nnn
  | .jpV0 nnn => formatA 0xB#4 nnn
  | .rnd x nn => formatXK 0xC#4 x nn
  | .drw x y n => formatXY 0xD#4 x y (indexNibble n)
  | .skp x => formatXK 0xE#4 x 0x9E#8
  | .sknp x => formatXK 0xE#4 x 0xA1#8
  | .ldXDT x => formatXK 0xF#4 x 0x07#8
  | .ldXK x => formatXK 0xF#4 x 0x0A#8
  | .ldDTX x => formatXK 0xF#4 x 0x15#8
  | .ldSTX x => formatXK 0xF#4 x 0x18#8
  | .addIX x => formatXK 0xF#4 x 0x1E#8
  | .ldFX x => formatXK 0xF#4 x 0x29#8
  | .ldBX x => formatXK 0xF#4 x 0x33#8
  | .ldMemX x => formatXK 0xF#4 x 0x55#8
  | .ldXMem x => formatXK 0xF#4 x 0x65#8

/-- The two bytes of an instruction as memory holds them, high byte first (20_memory.md rule R54). -/
def encodeBytes (i : Instr) : List Byte := [highByte (encode i), lowByte (encode i)]

/-! ### Assembler syntax (30_encoding.md rule R81), for reading only; log 30 -/

/-- A hex digit, as the spec writes it. -/
def hexDigit (d : Fin 16) : String :=
  ["0", "1", "2", "3", "4", "5", "6", "7", "8", "9", "A", "B", "C", "D", "E", "F"].getD d.val ""

/-- `nn` as two hex digits. -/
def hexByte (v : Byte) : String := hexDigit (Fin.ofNat 16 (v.toNat / 16)) ++ hexDigit (Fin.ofNat 16 v.toNat)

/-- `nnn` as three hex digits. -/
def hexAddr (a : Addr12) : String :=
  hexDigit (Fin.ofNat 16 (a.toNat / 256)) ++ hexDigit (Fin.ofNat 16 (a.toNat / 16)) ++ hexDigit (Fin.ofNat 16 a.toNat)

/-- `Vx`, written V0 to VF. -/
def regName (r : Reg) : String := "V" ++ hexDigit r

/-- A mnemonic with two operands. -/
def asmTwo (mnemonic a b : String) : String := mnemonic ++ " " ++ a ++ ", " ++ b

/-- The conventional mnemonic of an instruction, with its operands. -/
def Instr.asm : Instr → String
  | .cls => "CLS"
  | .ret => "RET"
  | .jp nnn => "JP " ++ hexAddr nnn
  | .call nnn => "CALL " ++ hexAddr nnn
  | .seImm x nn => asmTwo "SE" (regName x) (hexByte nn)
  | .sneImm x nn => asmTwo "SNE" (regName x) (hexByte nn)
  | .seReg x y => asmTwo "SE" (regName x) (regName y)
  | .ldImm x nn => asmTwo "LD" (regName x) (hexByte nn)
  | .addImm x nn => asmTwo "ADD" (regName x) (hexByte nn)
  | .ldReg x y => asmTwo "LD" (regName x) (regName y)
  | .orReg x y => asmTwo "OR" (regName x) (regName y)
  | .andReg x y => asmTwo "AND" (regName x) (regName y)
  | .xorReg x y => asmTwo "XOR" (regName x) (regName y)
  | .addReg x y => asmTwo "ADD" (regName x) (regName y)
  | .sub x y => asmTwo "SUB" (regName x) (regName y)
  | .shr x y => asmTwo "SHR" (regName x) (regName y)
  | .subn x y => asmTwo "SUBN" (regName x) (regName y)
  | .shl x y => asmTwo "SHL" (regName x) (regName y)
  | .sneReg x y => asmTwo "SNE" (regName x) (regName y)
  | .ldI nnn => asmTwo "LD" "I" (hexAddr nnn)
  | .jpV0 nnn => asmTwo "JP" "V0" (hexAddr nnn)
  | .rnd x nn => asmTwo "RND" (regName x) (hexByte nn)
  | .drw x y n => asmTwo "DRW" (regName x) (regName y) ++ ", " ++ hexDigit n
  | .skp x => "SKP " ++ regName x
  | .sknp x => "SKNP " ++ regName x
  | .ldXDT x => asmTwo "LD" (regName x) "DT"
  | .ldXK x => asmTwo "LD" (regName x) "K"
  | .ldDTX x => asmTwo "LD" "DT" (regName x)
  | .ldSTX x => asmTwo "LD" "ST" (regName x)
  | .addIX x => asmTwo "ADD" "I" (regName x)
  | .ldFX x => asmTwo "LD" "F" (regName x)
  | .ldBX x => asmTwo "LD" "B" (regName x)
  | .ldMemX x => asmTwo "LD" "[I]" (regName x)
  | .ldXMem x => asmTwo "LD" (regName x) "[I]"

/-! ### The host's word numbering -/

/-- The instruction word of a table row: the low `nbits` bits of `w`, every bit above them 0. An instruction of this
hardware is one 16-bit word, so bits from 16 up belong to no instruction (30_encoding.md rule R70; log 26). -/
def tableWord (nbits w : Nat) : Word := BitVec.ofNat 16 (w % 2 ^ nbits)

/-- The instruction the decoder reads from an instruction whose bits, as spec/opcode_table.json numbers them, are `w`:
the word's two bytes, high byte at the lower address, given to the byte decoder. -/
def decodeTableWord (nbits w : Nat) : Option Instr :=
  match decodeBytes [highByte (tableWord nbits w), lowByte (tableWord nbits w)] with
  | .ok (i, _) => some i
  | .error _ => none

end Sys2Proof
end

