-- ==== Sys2Proof/Machine/State.lean ====
section
/-! DEFINITION. The architectural state of the CORE (10_state.md rules R20 to R39) as plain data, the reasons a step
can stop, and the state after RESET (70_reset_and_hazards.md rule R240). -/

namespace Sys2Proof.Machine

/-- Memory as data: (address, byte) pairs, addresses strictly rising, no entry equal to what an unlisted address
reads as (`Memory.wf` in Ops.lean says so). -/
abbrev Memory := List Host.Cell

/-- A grid of single-bit pixels, row by row (10_state.md rule R31). -/
abbrev Grid (w h : Nat) := Vector (Vector Bool w) h

/-- The framebuffer at the machine's native resolution (10_state.md rule R31; D4). -/
abbrev Framebuffer (cfg : Params := Config.params) := Grid cfg.displayW cfg.displayH

/-- `run_state` (10_state.md rule R34). -/
inductive RunState where
  | running
  | awaitKey
  | faulted
  deriving DecidableEq, Repr

/-- The error kinds, `fault.kind` (10_state.md rule R36; 60_exceptions.md rule R210). -/
inductive FaultKind where
  | none
  | stackOverflow
  | stackUnderflow
  | memoryOutOfBounds
  | invalidInstruction
  deriving DecidableEq, Repr

/-- The fault record (10_state.md rule R36). -/
structure FaultRecord where
  kind : FaultKind
  pc   : Word
  word : Word
  addr : Word
  deriving DecidableEq, Repr

/-- The fault record with nothing recorded (10_state.md rule R36, its reset value). -/
def FaultRecord.clear : FaultRecord := ⟨.none, 0#16, 0#16, 0#16⟩

/-- The complete architectural state (10_state.md rule R38), and one field of the model's own, `draws`, over
the parameters of 00_scope.md rule R9. `State` with none named is the state at the values the spec decides (log 31). -/
structure State (cfg : Params := Config.params) where
  /-- V0..VF; VF is also the flag register (R20, R22). -/
  V : Vector Byte 16
  /-- The program counter (R24). -/
  PC : Word
  /-- The index register (R25). -/
  I : Word
  /-- The return stack, apart from memory (R26). -/
  stack : Vector Word Config.stackDepth
  /-- The stack pointer, the next free slot, 0..16 (R27; log 18). -/
  SP : Fin 17
  /-- The delay timer (R29). -/
  DT : Byte
  /-- The sound timer (R30). -/
  ST : Byte
  /-- The 4096 bytes of memory (20_memory.md rule R50). -/
  mem : Memory
  /-- The framebuffer (R31). -/
  fb : Framebuffer cfg
  /-- `key_valid` (R32). -/
  keyValid : Bool
  /-- `key_value`, meaningful while `keyValid` (R32). -/
  keyValue : Fin 16
  /-- `font_base` (R33). -/
  fontBase : Word
  /-- `run_state` (R34). -/
  runState : RunState
  /-- `wait_x`, the register a pending Fx0A will write (R35). -/
  waitX : Reg
  /-- The fault record (R36). -/
  fault : FaultRecord
  /-- THE MODEL'S OWN field: how many random bytes have been drawn, the index of the next free value
  `Params.randomByte` (DESIGN CHOICE, log 6). -/
  draws : Nat
  deriving DecidableEq, Repr

/-- The reasons a step can stop with a fault: there are none. Every error of this hardware has an entry the spec
describes (60_exceptions.md rule R212), so the machine takes it and goes on to a next state with `runState = .faulted`
(log 7). Nothing raises a value of this type. -/
inductive Fault where
  deriving DecidableEq, Repr

/-- The reasons a step can be refused. -/
inductive Refusal where
  /-- An instruction with no meaning yet, by its mnemonic in the opcode table; raised by `exec`'s arms alone, and by
  none of them now. Safe: the model stops where the hardware goes on. -/
  | notModelled (mnemonic : String)
  deriving DecidableEq, Repr

/-- The machine right after RESET, at any parameters (70_reset_and_hazards.md rule R240; the values are the spec's own
decision D2 and D3, log 1 and log 2; `draws` is log 6). -/
def State.resetAt (cfg : Params) : State cfg where
  V := Vector.replicate 16 0#8
  PC := cfg.loadAddr
  I := 0#16
  stack := Vector.replicate Config.stackDepth 0#16
  SP := 0
  DT := 0#8
  ST := 0#8
  mem := []
  fb := Vector.replicate cfg.displayH (Vector.replicate cfg.displayW false)
  keyValid := false
  keyValue := 0
  fontBase := 0#16
  runState := .running
  waitX := 0
  fault := FaultRecord.clear
  draws := 0

/-- The machine right after RESET, at the values the spec decides. -/
def State.reset : State := State.resetAt Config.params

end Sys2Proof.Machine
end

