-- ==== Sys2Proof/Machine/Ops.lean ====
section
/-! DEFINITION. The shared operations: memory, register and timer accessors, the stack controller, the framebuffer, the
key latch, the random input, taking an error, and running one instruction's effect with its commit
(00_scope.md rules R13 to R15; 20_memory.md; 40_step_cycle.md rules R90 to R108; 60_exceptions.md rule R212). -/

namespace Sys2Proof.Machine

variable {cfg : Params}

/-! ### Errors -/

/-- What `raise E(info)` carries: the kind and, for `MemoryOutOfBounds`, the lowest out-of-range address (00_scope.md
rule R14; 60_exceptions.md rule R210: `addr` is 0 for the other kinds). -/
structure Raised where
  kind : FaultKind
  addr : Word
  deriving DecidableEq, Repr

/-- The codes of 60_exceptions.md rule R210. -/
def FaultKind.code : FaultKind → Nat
  | .none => 0
  | .stackOverflow => 1
  | .stackUnderflow => 2
  | .memoryOutOfBounds => 3
  | .invalidInstruction => 4

/-- `raise MemoryOutOfBounds(addr = a)`. -/
def oobError (a : Nat) : Raised := ⟨.memoryOutOfBounds, BitVec.ofNat 16 a⟩

/-! ### Memory (20_memory.md) -/

/-- What a byte that no entry lists reads as: the reset contents of memory (70_reset_and_hazards.md rule R240,
`mem[0..4095] <- 0`; log 15). -/
def Memory.unlistedByte : Byte := 0#8

/-- The byte at an address. -/
def Memory.get : Memory → Nat → Byte
  | [], _ => Memory.unlistedByte
  | (k, v) :: m, a => if a = k then v else Memory.get m a

/-- Memory with one byte written, in canonical form. -/
def Memory.set : Memory → Nat → Byte → Memory
  | [], a, v => if v = Memory.unlistedByte then [] else [(a, v)]
  | (k, w) :: m, a, v =>
    if a < k then (if v = Memory.unlistedByte then (k, w) :: m else (a, v) :: (k, w) :: m)
    else if a = k then (if v = Memory.unlistedByte then m else (a, v) :: m)
    else (k, w) :: Memory.set m a v

/-- The canonical form: addresses strictly rising and below `MEM_SIZE`, no entry equal to the unlisted byte. -/
def Memory.wf : Memory → Bool
  | [] => true
  | (k, v) :: m => decide (k < Config.memSize) && decide (v ≠ Memory.unlistedByte)
      && m.all (fun c => decide (k < c.1)) && Memory.wf m

/-- The k bytes from `a` up, lowest address first. -/
def Memory.getMany (m : Memory) (a k : Nat) : List Byte := (List.range k).map fun j => m.get (a + j)

/-- Memory with bytes written from `a` up, lowest address first. -/
def Memory.setMany (m : Memory) : Nat → List Byte → Memory
  | _, [] => m
  | a, b :: bs => Memory.setMany (m.set a b) (a + 1) bs

/-- `InRange(a, k)`: all k bytes from `a` up exist (00_scope.md rule R13, `a + k - 1 <= 4095`). -/
def inRange (a k : Nat) : Bool := decide (a + k ≤ Config.memSize)

/-- `FirstOOB(a, k)`: the lowest of the k addresses from `a` that is outside memory (00_scope.md rule R13). -/
def firstOOB (a : Nat) : Nat := max a Config.memSize

/-- A range of k bytes is refused when it is not empty and not in range (20_memory.md rule R53; 44_display.md rule R181
and 60_exceptions.md rule R218 for the empty range). -/
def rangeRefused (a k : Nat) : Bool := decide (0 < k) && !inRange a k

/-- A bounds-checked read of k bytes: the whole range is checked before the first byte is read (20_memory.md rule R53).
`MemRead(a, 1)` of rule R52 is the range of one byte. -/
def readRange (m : Memory) (a k : Nat) : Except Raised (List Byte) :=
  if rangeRefused a k then .error (oobError (firstOOB a)) else .ok (m.getMany a k)

/-- A bounds-checked write: the whole range is checked before the first byte is written (20_memory.md rule R53).
`MemWrite(a, 1, v)` of rule R52 is the range of one byte. -/
def writeRange (m : Memory) (a : Nat) (bs : List Byte) : Except Raised Memory :=
  if rangeRefused a bs.length then .error (oobError (firstOOB a)) else .ok (m.setMany a bs)

/-! ### Registers and timers (10_state.md) -/

/-- Reads V[r]. -/
def State.reg (s : State cfg) (r : Reg) : Byte := s.V[r]

/-- `V[r] <- v`. No register is hard-wired (10_state.md rule R20). -/
def State.setReg (s : State cfg) (r : Reg) (v : Byte) : State cfg := { s with V := s.V.set r.val v r.isLt }

/-- `PC <- a`. -/
def State.setPC (s : State cfg) (a : Word) : State cfg := { s with PC := a }

/-- `I <- a`. -/
def State.setI (s : State cfg) (a : Word) : State cfg := { s with I := a }

/-- `DT <- v`. -/
def State.setDT (s : State cfg) (v : Byte) : State cfg := { s with DT := v }

/-- `ST <- v`. -/
def State.setST (s : State cfg) (v : Byte) : State cfg := { s with ST := v }

/-- Memory replaced. -/
def State.setMem (s : State cfg) (m : Memory) : State cfg := { s with mem := m }

/-- The framebuffer replaced. -/
def State.setFb (s : State cfg) (g : Framebuffer cfg) : State cfg := { s with fb := g }

/-- The registers from V[i] up replaced by the bytes of a list, in order; what lies past V15 is dropped. -/
def fillRegs (V : Vector Byte 16) : Nat → List Byte → Vector Byte 16
  | _, [] => V
  | i, b :: bs => fillRegs (V.setIfInBounds i b) (i + 1) bs

/-- `V[0..] <- bytes`. -/
def State.loadRegs (s : State cfg) (bs : List Byte) : State cfg := { s with V := fillRegs s.V 0 bs }

/-- V[0..x], x + 1 bytes. -/
def State.regsUpTo (s : State cfg) (x : Reg) : List Byte := s.V.toList.take (x.val + 1)

/-! ### The PC incrementer (40_step_cycle.md rule R104) -/

/-- `(PC + 2) mod 2^16`. -/
def incPC (a : Word) : Word := a + 2#16

/-- The fetch advance (40_step_cycle.md rule R92). -/
def State.advancePC (s : State cfg) : State cfg := s.setPC (incPC s.PC)

/-- A skip: "advance `program_counter` by an additional 2" when the condition holds (40_step_cycle.md rule R104). -/
def State.skipIf (s : State cfg) (c : Bool) : State cfg := if c then s.setPC (incPC s.PC) else s

/-! ### The stack controller (10_state.md rule R28) -/

/-- The state after a push onto a stack that is not full. -/
def State.pushed (s : State cfg) (v : Word) (h : s.SP.val < Config.stackDepth) : State cfg :=
  { s with stack := s.stack.set s.SP.val v h, SP := ⟨s.SP.val + 1, Nat.succ_lt_succ h⟩ }

/-- The state after a pop: SP moves down and the slot keeps its value (10_state.md rule R26). -/
def State.popped (s : State cfg) : State cfg :=
  { s with SP := ⟨s.SP.val - 1, Nat.lt_of_le_of_lt (Nat.sub_le _ _) s.SP.isLt⟩ }

/-- `Push(v)`. -/
def push (v : Word) (s : State cfg) : Except Raised (State cfg) :=
  if h : s.SP.val < Config.stackDepth then .ok (s.pushed v h) else .error ⟨.stackOverflow, 0#16⟩

/-- `stack[k]`, for a slot number below 16. -/
def State.slot (s : State cfg) (k : Nat) : Word := s.stack.toList.getD k 0#16

/-- `Pop()`: the popped address and the state after it. -/
def pop (s : State cfg) : Except Raised (Word × State cfg) :=
  if s.SP.val = 0 then .error ⟨.stackUnderflow, 0#16⟩ else .ok (s.slot (s.SP.val - 1), s.popped)

/-! ### The framebuffer (10_state.md rule R31) -/

/-- `fb[r][c]`. -/
def Grid.pixel {w h : Nat} (g : Grid w h) (r : Fin h) (c : Fin w) : Bool := g[r][c]

/-- `fb[r][c] <- fb[r][c] XOR 1`. -/
def Grid.toggle {w h : Nat} (g : Grid w h) (r : Fin h) (c : Fin w) : Grid w h :=
  g.set r.val (g[r].set c.val (!g[r][c]) c.isLt) r.isLt

/-- Every pixel off. -/
def Grid.blank (w h : Nat) : Grid w h := Vector.replicate h (Vector.replicate w false)

/-! ### The key latch (10_state.md rule R32; 45_keys_timers.md) -/

/-- `KeyMatch(v)`: the latch is valid and names the 8-bit value `v`; no `v > 15` matches (00_scope.md rule R15; D16). -/
def State.keyMatch (s : State cfg) (v : Byte) : Bool := s.keyValid && v.toNat == s.keyValue.val

/-- `zext_8(key_value)`. -/
def State.keyByte (s : State cfg) : Byte := BitVec.ofNat 8 s.keyValue.val

/-! ### The random-byte input (40_step_cycle.md rule R108; 42_alu.md rule R142) -/

/-- The byte the input shows at the next draw: a free value (log 6). -/
def State.randomInput (s : State cfg) : Byte := cfg.randomByte s.draws

/-- The state after the byte has been sampled: the next draw is a fresh one. -/
def State.drawn (s : State cfg) : State cfg := { s with draws := s.draws + 1 }

/-! ### The key wait (40_step_cycle.md rule R97; 45_keys_timers.md rule R193) -/

/-- Fx0A found no key: `wait_x <- x; run_state <- AWAIT_KEY`. -/
def State.beginWait (s : State cfg) (x : Reg) : State cfg := { s with waitX := x, runState := .awaitKey }

/-- `run_state <- RUNNING`, leaving a wait. -/
def State.endWait (s : State cfg) : State cfg := { s with runState := .running }

/-- STEP while awaiting a key: the wait completes when a key is latched, else nothing changes. -/
def State.resumeWait (s : State cfg) : State cfg :=
  if s.keyValid then (s.setReg s.waitX s.keyByte).endWait else s

/-! ### Taking an error, and the commit (60_exceptions.md rule R212; 40_step_cycle.md rules R96 and R100) -/

/-- Fault entry, `fail(kind, pc0, word, addr)`. It is applied to the state at the START of the step, so every write of
the step is discarded and PC is pc0; the record is written and the engine is FAULTED (60_exceptions.md rule R212).
Fault exit is RESET alone (60_exceptions.md rule R213): `State.restarted` in Transactions.lean. -/
def State.takeError (s : State cfg) (word : Word) (e : Raised) : State cfg :=
  { s with fault := ⟨e.kind, s.PC, word, e.addr⟩, runState := .faulted }

/-- One instruction: its effect runs on the state with PC already advanced; if it raises, the step's writes are
discarded and the error is taken with the instruction's own word (40_step_cycle.md rules R92, R95 and R96). `s` is the
state at the start of the step. The word is `encode i`, the one word that decodes to `i` (log 20). -/
def runInstr (i : Instr) (s : State cfg) (effect : State cfg → Except Raised (State cfg)) : Host.Outcome (State cfg) Fault Refusal :=
  match effect s.advancePC with
  | .ok t => .next t
  | .error e => .next (s.takeError (encode i) e)

/-- An instruction that cannot raise. -/
def runPure (i : Instr) (s : State cfg) (effect : State cfg → State cfg) : Host.Outcome (State cfg) Fault Refusal :=
  runInstr i s fun s1 => .ok (effect s1)

/-! ### Fetch (40_step_cycle.md rule R91) -/

/-- The word at PC, big-endian; it succeeds exactly when `pc0 <= 4094`. -/
def fetch (s : State cfg) : Except Raised Word :=
  if inRange s.PC.toNat 2 then .ok (bigEndian (s.mem.get s.PC.toNat) (s.mem.get (s.PC.toNat + 1)))
  else .error (oobError (firstOOB s.PC.toNat))

/-- The illegal word of 40_step_cycle.md rule R94. -/
def invalidInstruction : Raised := ⟨.invalidInstruction, 0#16⟩

/-! ### The step (40_step_cycle.md rules R90 to R100) -/

/-- STEP, the pseudocode of rule R100, over the meaning `run` of the instructions. FAULTED: nothing changes (R99).
AWAIT_KEY: nothing is fetched, and the wait completes if a key is latched (R97). RUNNING: fetch (R91), decode (R93, R94),
execute and commit (R95, R96). The fetch advance of R92 stands in `runInstr`, since an error takes it back. -/
def stepBy (run : Instr → State cfg → Host.Outcome (State cfg) Fault Refusal) (s : State cfg) :
    Host.Outcome (State cfg) Fault Refusal :=
  match s.runState with
  | .faulted => .next s
  | .awaitKey => .next s.resumeWait
  | .running =>
    match fetch s with
    | .error e => .next (s.takeError 0#16 e)
    | .ok w =>
      match decode w with
      | .error _ => .next (s.takeError w invalidInstruction)
      | .ok i => run i s

/-! ### The result of a step (40_step_cycle.md rules R98 and R100) -/

/-- What STEP returns to the host. -/
inductive StepResult where
  | ok
  | awaitingKey
  | error (kind : FaultKind)
  deriving DecidableEq, Repr

/-- The result of a STEP, read off the state it ends in: by rule R100 a step returns `ERROR(fault.kind)` exactly when it
ends FAULTED, `AWAITING_KEY` exactly when it ends in AWAIT_KEY, and `OK` otherwise (DEDUCED, log 19). -/
def State.stepResult (t : State cfg) : StepResult :=
  match t.runState with
  | .running => .ok
  | .awaitKey => .awaitingKey
  | .faulted => .error t.fault.kind

end Sys2Proof.Machine
end

