-- ==== Sys2Proof/Machine/Operands.lean ====
section
/-! DEFINITION. The operand forms (30_encoding.md rules R73 and R74; 40_step_cycle.md rule R102): the implicit
registers, the 12-bit immediate, the shifts' source, the effective address, and the address adders of rules R104 and
R105. The register forms V[x] and V[y] are `State.reg`; nn and the row count n are used as they stand. -/

namespace Sys2Proof.Machine

variable {cfg : Params}

/-- V0, read implicitly by Bnnn (41_control_flow.md rule R117). -/
def v0 : Reg := 0

/-- VF, the flag register (10_state.md rule R22). -/
def vF : Reg := 15

/-- `zext_16(nnn)` (30_encoding.md rule R73). -/
def zext16 (nnn : Addr12) : Word := nnn.setWidth 16

/-- The Bnnn adder, `zext_16(nnn) + zext_16(V[0])` (41_control_flow.md rule R117). -/
def jumpOffset (nnn : Addr12) (v : Byte) : Word := zext16 nnn + v.setWidth 16

/-- The register an 8xy6 or 8xyE shifts: `(SHIFT_SOURCE == X) ? a : b` (42_alu.md rules R139 and R141). -/
def shiftOperand (src : ShiftSource) (a b : Byte) : Byte :=
  match src with
  | .x => a
  | .y => b

/-- The memory address an instruction starts from: I as an unbounded natural (20_memory.md rule R51). -/
def State.base (s : State cfg) : Nat := s.I.toNat

/-- The index-register adder of Fx1E, modulo 2^16 (40_step_cycle.md rule R105). -/
def indexSum (i : Word) (a : Byte) : Word := i + a.setWidth 16

/-- The index-register adder of Fx29, `(font_base + 5 × a) mod 2^16`; the full 8-bit value counts (40_step_cycle.md
rule R105; 43_index_memory.md rule R162; D29). -/
def glyphAddr (fontBase : Word) (a : Byte) : Word := BitVec.ofNat 16 (fontBase.toNat + 5 * a.toNat)

/-- The three decimal digits of a byte, hundreds first (43_index_memory.md rule R163). -/
def bcdDigits (v : Byte) : List Byte :=
  [BitVec.ofNat 8 (v.toNat / 100), BitVec.ofNat 8 (v.toNat / 10 % 10), BitVec.ofNat 8 (v.toNat % 10)]

end Sys2Proof.Machine
end

