-- ==== Sys2Proof/Machine/Flags.lean ====
section
/-! DEFINITION. The flag computations (10_state.md rule R23; 42_alu.md rules R137 to R141; 44_display.md rule R181).
VF is the only flag, and every flag write stores exactly 0x00 or 0x01. -/

namespace Sys2Proof.Machine

variable {cfg : Params}

/-- A flag as the byte VF holds. -/
def flagByte (c : Bool) : Byte := if c then 1#8 else 0#8

/-- 8xy4: carry, `a + b > 255` (42_alu.md rule R137). -/
def carryOut (a b : Byte) : Bool := decide (a.toNat + b.toNat > 255)

/-- The borrow of `a - b`: `a < b` (42_alu.md rules R138 and R140). -/
def borrowOut (a b : Byte) : Bool := decide (a.toNat < b.toNat)

/-- The flag of a subtraction in the given sense (42_alu.md rule R138; D7, log 5). -/
def subFlag (sense : SubFlagSense) (borrow : Bool) : Bool :=
  match sense with
  | .borrow => borrow
  | .notBorrow => !borrow

/-- 8xy6: bit 0 shifted out (42_alu.md rule R139). -/
def shiftedOutRight (s : Byte) : Bool := s.getLsbD 0

/-- 8xyE: bit 7 shifted out (42_alu.md rule R141). -/
def shiftedOutLeft (s : Byte) : Bool := s.getLsbD 7

/-- `V[15] <- c`. -/
def State.setFlag (s : State cfg) (c : Bool) : State cfg := s.setReg vF (flagByte c)

end Sys2Proof.Machine
end

