-- ==== Sys2Proof/Machine/Alu.lean ====
section
/-! DEFINITION. Register loads and the ALU: 6xnn, 7xnn, 8xy0 to 8xy7, 8xyE, Cxnn (42_alu.md rules R130 to R143). An ALU
function answers a result and, for the flag-writing ones, a flag; sums and differences are taken exactly and narrowed
to 8 bits at the end. -/

namespace Sys2Proof.Machine

variable {cfg : Params}

/-- What the ALU answers: the result and the flag, if the function has one (40_step_cycle.md rule R103). -/
abbrev AluOut := Byte × Option Bool

/-- The ALU adder's result, `(a + b) mod 2^8` (rule R143). -/
def addMod (a b : Byte) : Byte := BitVec.ofNat 8 (a.toNat + b.toNat)

/-- The ALU's difference, `(a + 256 − b) mod 256` (rule R143). -/
def subMod (a b : Byte) : Byte := BitVec.ofNat 8 (a.toNat + 256 - b.toNat)

/-- `0`: copy (rule R133). -/
def aluCopy (_a b : Byte) : AluOut := (b, none)
/-- `1`: OR (rule R134). -/
def aluOr (a b : Byte) : AluOut := (a ||| b, none)
/-- `2`: AND (rule R135). -/
def aluAnd (a b : Byte) : AluOut := (a &&& b, none)
/-- `3`: XOR (rule R136). -/
def aluXor (a b : Byte) : AluOut := (a ^^^ b, none)
/-- `4`: add with carry out (rule R137). -/
def aluAdd (a b : Byte) : AluOut := (addMod a b, some (carryOut a b))
/-- `5`: subtract a − b (rule R138). -/
def aluSub (sense : SubFlagSense) (a b : Byte) : AluOut := (subMod a b, some (subFlag sense (borrowOut a b)))
/-- `6`: logical shift right by one (rule R139). -/
def aluShr (src : ShiftSource) (a b : Byte) : AluOut :=
  let s := shiftOperand src a b
  (BitVec.ofNat 8 (s.toNat / 2), some (shiftedOutRight s))
/-- `7`: reverse subtract b − a (rule R140). -/
def aluSubn (sense : SubFlagSense) (a b : Byte) : AluOut := (subMod b a, some (subFlag sense (borrowOut b a)))
/-- `E`: shift left by one (rule R141). -/
def aluShl (src : ShiftSource) (a b : Byte) : AluOut :=
  let s := shiftOperand src a b
  (BitVec.ofNat 8 (s.toNat * 2), some (shiftedOutLeft s))

/-- The flag write of an ALU function that has one. -/
def State.setFlagIf (s : State cfg) (c : Option Bool) : State cfg :=
  match c with
  | some c => s.setFlag c
  | none => s

/-- The write-back of the 8 family: the flag first, then the destination, so that with x = 15 the result stays
(rule R132). -/
def State.writeAlu (s : State cfg) (x : Reg) (out : AluOut) : State cfg := (s.setFlagIf out.2).setReg x out.1

/-- The common order of the 8 family: both operands are latched before any write (rule R132; D8). -/
def runAlu (i : Instr) (f : Byte → Byte → AluOut) (x y : Reg) (s : State cfg) : Host.Outcome (State cfg) Fault Refusal :=
  runPure i s fun s1 => s1.writeAlu x (f (s1.reg x) (s1.reg y))

/-- `6xnn`: `V[x] <- nn` (rule R130). -/
def execLdImm (x : Reg) (nn : Byte) (s : State cfg) : Host.Outcome (State cfg) Fault Refusal :=
  runPure (.ldImm x nn) s fun s1 => s1.setReg x nn

/-- `7xnn`: `V[x] <- (V[x] + nn) mod 2^8`, no flag (rule R131). -/
def execAddImm (x : Reg) (nn : Byte) (s : State cfg) : Host.Outcome (State cfg) Fault Refusal :=
  runPure (.addImm x nn) s fun s1 => s1.setReg x (addMod (s1.reg x) nn)

/-- `8xy0` (rule R133). -/
def execLdReg (x y : Reg) (s : State cfg) : Host.Outcome (State cfg) Fault Refusal := runAlu (.ldReg x y) aluCopy x y s

/-- `8xy1` (rule R134). -/
def execOrReg (x y : Reg) (s : State cfg) : Host.Outcome (State cfg) Fault Refusal := runAlu (.orReg x y) aluOr x y s

/-- `8xy2` (rule R135). -/
def execAndReg (x y : Reg) (s : State cfg) : Host.Outcome (State cfg) Fault Refusal := runAlu (.andReg x y) aluAnd x y s

/-- `8xy3` (rule R136). -/
def execXorReg (x y : Reg) (s : State cfg) : Host.Outcome (State cfg) Fault Refusal := runAlu (.xorReg x y) aluXor x y s

/-- `8xy4` (rule R137). -/
def execAddReg (x y : Reg) (s : State cfg) : Host.Outcome (State cfg) Fault Refusal := runAlu (.addReg x y) aluAdd x y s

/-- `8xy5` (rule R138), in the sense `SUB_FLAG_SENSE`. -/
def execSub (x y : Reg) (s : State cfg) : Host.Outcome (State cfg) Fault Refusal :=
  runAlu (.sub x y) (aluSub cfg.subFlagSense) x y s

/-- `8xy6` (rule R139), shifting the register `SHIFT_SOURCE` names. -/
def execShr (x y : Reg) (s : State cfg) : Host.Outcome (State cfg) Fault Refusal :=
  runAlu (.shr x y) (aluShr cfg.shiftSource) x y s

/-- `8xy7` (rule R140), in the sense `SUB_FLAG_SENSE`. -/
def execSubn (x y : Reg) (s : State cfg) : Host.Outcome (State cfg) Fault Refusal :=
  runAlu (.subn x y) (aluSubn cfg.subFlagSense) x y s

/-- `8xyE` (rule R141), shifting the register `SHIFT_SOURCE` names. -/
def execShl (x y : Reg) (s : State cfg) : Host.Outcome (State cfg) Fault Refusal :=
  runAlu (.shl x y) (aluShl cfg.shiftSource) x y s

/-- `Cxnn`: `V[x] <- RandomByte() AND nn`, one draw (rule R142). -/
def execRnd (x : Reg) (nn : Byte) (s : State cfg) : Host.Outcome (State cfg) Fault Refusal :=
  runPure (.rnd x nn) s fun s1 => s1.drawn.setReg x (s1.randomInput &&& nn)

end Sys2Proof.Machine
end

