-- ==== Sys2Proof/Machine/ControlFlow.lean ====
section
/-! DEFINITION. Control transfer: 00EE, 1nnn, 2nnn, 3xnn, 4xnn, 5xy0, 9xy0, Bnnn (41_control_flow.md rules R110 to
R118). An effect runs with PC already at pc0 + 2. -/

namespace Sys2Proof.Machine

variable {cfg : Params}

/-- `00EE`: pop a return address into PC, unchecked; `StackUnderflow` when SP = 0 (rule R110). -/
def execRet (s : State cfg) : Host.Outcome (State cfg) Fault Refusal :=
  runInstr .ret s fun s1 => (pop s1).map fun p => p.2.setPC p.1

/-- `1nnn`: `PC <- zext_16(nnn)` (rule R111). -/
def execJp (nnn : Addr12) (s : State cfg) : Host.Outcome (State cfg) Fault Refusal :=
  runPure (.jp nnn) s fun s1 => s1.setPC (zext16 nnn)

/-- `2nnn`: push the address of the next instruction, then jump; `StackOverflow` when SP = 16 (rule R112). -/
def execCall (nnn : Addr12) (s : State cfg) : Host.Outcome (State cfg) Fault Refusal :=
  runInstr (.call nnn) s fun s1 => (push s1.PC s1).map fun s2 => s2.setPC (zext16 nnn)

/-- `3xnn`: skip if V[x] = nn (rule R113). -/
def execSeImm (x : Reg) (nn : Byte) (s : State cfg) : Host.Outcome (State cfg) Fault Refusal :=
  runPure (.seImm x nn) s fun s1 => s1.skipIf (s1.reg x == nn)

/-- `4xnn`: skip if V[x] ≠ nn (rule R114). -/
def execSneImm (x : Reg) (nn : Byte) (s : State cfg) : Host.Outcome (State cfg) Fault Refusal :=
  runPure (.sneImm x nn) s fun s1 => s1.skipIf (s1.reg x != nn)

/-- `5xy0`: skip if V[x] = V[y] (rule R115). -/
def execSeReg (x y : Reg) (s : State cfg) : Host.Outcome (State cfg) Fault Refusal :=
  runPure (.seReg x y) s fun s1 => s1.skipIf (s1.reg x == s1.reg y)

/-- `9xy0`: skip if V[x] ≠ V[y] (rule R116). -/
def execSneReg (x y : Reg) (s : State cfg) : Host.Outcome (State cfg) Fault Refusal :=
  runPure (.sneReg x y) s fun s1 => s1.skipIf (s1.reg x != s1.reg y)

/-- `Bnnn`: `PC <- zext_16(nnn) + zext_16(V[0])`, not masked (rule R117). -/
def execJpV0 (nnn : Addr12) (s : State cfg) : Host.Outcome (State cfg) Fault Refusal :=
  runPure (.jpV0 nnn) s fun s1 => s1.setPC (jumpOffset nnn (s1.reg v0))

end Sys2Proof.Machine
end

