-- ==== Sys2Proof/Machine/Display.lean ====
section
/-! DEFINITION. The framebuffer instructions 00E0 and Dxyn (44_display.md rules R180 and R181). The display's size
is a parameter (00_scope.md rule R9). -/

namespace Sys2Proof.Machine

variable {cfg : Params}

/-- The pixels one sprite row asks to flip, left to right: bit 7 is the leftmost (D5, log 22), and coordinates wrap
modulo the display dimensions. -/
def rowPixels {w h : Nat} (hw : 0 < w) (hh : 0 < h) (cx py : Nat) (row : Byte) : List (Fin h × Fin w) :=
  ((List.range 8).filter fun c => row.getLsbD (7 - c)).map fun c => (⟨py % h, Nat.mod_lt _ hh⟩, ⟨(cx + c) % w, Nat.mod_lt _ hw⟩)

/-- The pixels a sprite asks to flip, row by row from row `py` down, in the loop order of rule R181. -/
def spritePixels {w h : Nat} (hw : 0 < w) (hh : 0 < h) (cx : Nat) : Nat → List Byte → List (Fin h × Fin w)
  | _, [] => []
  | py, row :: rows => rowPixels hw hh cx py row ++ spritePixels hw hh cx (py + 1) rows

/-- One pixel of the draw: note whether it is erased, then XOR it. -/
def xorPixel {w h : Nat} (acc : Grid w h × Bool) (p : Fin h × Fin w) : Grid w h × Bool :=
  (acc.1.toggle p.1 p.2, acc.2 || acc.1.pixel p.1 p.2)

/-- The whole draw: the new grid, and whether any pixel was erased. -/
def drawSprite {w h : Nat} (hw : 0 < w) (hh : 0 < h) (g : Grid w h) (cx cy : Nat) (rows : List Byte) : Grid w h × Bool :=
  (spritePixels hw hh cx cy rows).foldl xorPixel (g, false)

/-- `00E0`: every pixel off (rule R180). -/
def execCls (s : State cfg) : Host.Outcome (State cfg) Fault Refusal :=
  runPure .cls s fun s1 => s1.setFb (Grid.blank cfg.displayW cfg.displayH)

/-- `Dxyn`: draw n sprite rows read at I, at column V[x] and row V[y]; VF is the collision flag, written after the
pixels and always (rule R181). -/
def execDrw (x y : Reg) (n : Fin 16) (s : State cfg) : Host.Outcome (State cfg) Fault Refusal :=
  runInstr (.drw x y n) s fun s1 =>
    (readRange s1.mem s1.base n.val).map fun rows =>
      let d := drawSprite cfg.displayW_pos cfg.displayH_pos s1.fb (s1.reg x).toNat (s1.reg y).toNat rows
      (s1.setFb d.1).setFlag d.2

end Sys2Proof.Machine
end

