-- ==== Sys2Proof/Machine/IndexMemory.lean ====
section
/-! DEFINITION. The index register and memory transfers: Annn, Fx1E, Fx29, Fx33, Fx55, Fx65 (43_index_memory.md rules
R160 to R165). No instruction of this file writes a flag, and none but Annn, Fx1E and Fx29 writes I. -/

namespace Sys2Proof.Machine

variable {cfg : Params}

/-- `Annn`: `I <- zext_16(nnn)` (rule R160). -/
def execLdI (nnn : Addr12) (s : State cfg) : Host.Outcome (State cfg) Fault Refusal :=
  runPure (.ldI nnn) s fun s1 => s1.setI (zext16 nnn)

/-- `Fx1E`: `I <- (I + V[x]) mod 2^16` (rule R161). -/
def execAddIX (x : Reg) (s : State cfg) : Host.Outcome (State cfg) Fault Refusal :=
  runPure (.addIX x) s fun s1 => s1.setI (indexSum s1.I (s1.reg x))

/-- `Fx29`: `I <- (font_base + 5 × V[x]) mod 2^16` (rule R162). -/
def execLdFX (x : Reg) (s : State cfg) : Host.Outcome (State cfg) Fault Refusal :=
  runPure (.ldFX x) s fun s1 => s1.setI (glyphAddr s1.fontBase (s1.reg x))

/-- `Fx33`: the decimal digits of V[x] at I, I+1, I+2 (rule R163). -/
def execLdBX (x : Reg) (s : State cfg) : Host.Outcome (State cfg) Fault Refusal :=
  runInstr (.ldBX x) s fun s1 => (writeRange s1.mem s1.base (bcdDigits (s1.reg x))).map fun m => s1.setMem m

/-- `Fx55`: V0..Vx at I..I+x (rule R164). -/
def execLdMemX (x : Reg) (s : State cfg) : Host.Outcome (State cfg) Fault Refusal :=
  runInstr (.ldMemX x) s fun s1 => (writeRange s1.mem s1.base (s1.regsUpTo x)).map fun m => s1.setMem m

/-- `Fx65`: V0..Vx from I..I+x (rule R165). -/
def execLdXMem (x : Reg) (s : State cfg) : Host.Outcome (State cfg) Fault Refusal :=
  runInstr (.ldXMem x) s fun s1 => (readRange s1.mem s1.base (x.val + 1)).map fun bs => s1.loadRegs bs

end Sys2Proof.Machine
end

