-- ==== Sys2Proof/Machine/KeysTimers.lean ====
section
/-! DEFINITION. The key latch and timer instructions Ex9E, ExA1, Fx07, Fx0A, Fx15, Fx18 (45_keys_timers.md rules R190
to R196). No instruction changes the latch, and the engine never decrements a timer. -/

namespace Sys2Proof.Machine

variable {cfg : Params}

/-- `Ex9E`: skip if the key V[x] names is latched (rule R190). -/
def execSkp (x : Reg) (s : State cfg) : Host.Outcome (State cfg) Fault Refusal :=
  runPure (.skp x) s fun s1 => s1.skipIf (s1.keyMatch (s1.reg x))

/-- `ExA1`: skip if it is not (rule R191). -/
def execSknp (x : Reg) (s : State cfg) : Host.Outcome (State cfg) Fault Refusal :=
  runPure (.sknp x) s fun s1 => s1.skipIf (!s1.keyMatch (s1.reg x))

/-- `Fx07`: `V[x] <- DT` (rule R192). -/
def execLdXDT (x : Reg) (s : State cfg) : Host.Outcome (State cfg) Fault Refusal :=
  runPure (.ldXDT x) s fun s1 => s1.setReg x s1.DT

/-- `Fx0A`: with a key latched `V[x] <- zext_8(key_value)`, else the key wait begins (rule R193). -/
def execLdXK (x : Reg) (s : State cfg) : Host.Outcome (State cfg) Fault Refusal :=
  runPure (.ldXK x) s fun s1 => if s1.keyValid then s1.setReg x s1.keyByte else s1.beginWait x

/-- `Fx15`: `DT <- V[x]` (rule R194). -/
def execLdDTX (x : Reg) (s : State cfg) : Host.Outcome (State cfg) Fault Refusal :=
  runPure (.ldDTX x) s fun s1 => s1.setDT (s1.reg x)

/-- `Fx18`: `ST <- V[x]` (rule R195). -/
def execLdSTX (x : Reg) (s : State cfg) : Host.Outcome (State cfg) Fault Refusal :=
  runPure (.ldSTX x) s fun s1 => s1.setST (s1.reg x)

end Sys2Proof.Machine
end

