-- ==== Sys2Proof/Machine/Step.lean ====
section
/-! DEFINITION. The step (40_step_cycle.md rules R90 to R100), and the host's way of placing one instruction. -/

namespace Sys2Proof.Machine

/-- STEP at the values the spec decides: `stepBy` over `exec`. -/
def step (s : State) : Host.Outcome State Fault Refusal := stepBy exec s

/-- `s` with the instruction whose bits are `w` placed where the very next step fetches: its two bytes at PC and
PC + 1, high byte first, and the engine RUNNING, since only then does a step fetch. Where PC names no two bytes of
memory, PC becomes `LOAD_ADDR` first (log 21). -/
def State.withFetchWord (s : State) (nbits w : Nat) : State :=
  let pc := if inRange s.PC.toNat 2 then s.PC else Config.loadAddr
  { s with
    PC := pc
    mem := s.mem.setMany pc.toNat [highByte (tableWord nbits w), lowByte (tableWord nbits w)]
    runState := .running }

end Sys2Proof.Machine
end

