-- ==== Sys2Proof/Machine/Parameters.lean ====
section
/-! DEFINITION. The machine at ANY parameters: "The model takes each one as an argument" (00_scope.md rule R9). Every meaning
already takes them, as the argument `cfg` of its state; here the dispatch and the step do. `exec` and `step` are these at
`Config.params` (Laws/Parameters.lean). -/

namespace Sys2Proof.Machine

variable {cfg : Params}

/-- The dispatch, the arms of `exec`, at any parameters. -/
def execAt (i : Instr) (s : State cfg) : Host.Outcome (State cfg) Fault Refusal :=
  match i with
  | .cls => execCls s
  | .ret => execRet s
  | .jp nnn => execJp nnn s
  | .call nnn => execCall nnn s
  | .seImm x nn => execSeImm x nn s
  | .sneImm x nn => execSneImm x nn s
  | .seReg x y => execSeReg x y s
  | .ldImm x nn => execLdImm x nn s
  | .addImm x nn => execAddImm x nn s
  | .ldReg x y => execLdReg x y s
  | .orReg x y => execOrReg x y s
  | .andReg x y => execAndReg x y s
  | .xorReg x y => execXorReg x y s
  | .addReg x y => execAddReg x y s
  | .sub x y => execSub x y s
  | .shr x y => execShr x y s
  | .subn x y => execSubn x y s
  | .shl x y => execShl x y s
  | .sneReg x y => execSneReg x y s
  | .ldI nnn => execLdI nnn s
  | .jpV0 nnn => execJpV0 nnn s
  | .rnd x nn => execRnd x nn s
  | .drw x y n => execDrw x y n s
  | .skp x => execSkp x s
  | .sknp x => execSknp x s
  | .ldXDT x => execLdXDT x s
  | .ldXK x => execLdXK x s
  | .ldDTX x => execLdDTX x s
  | .ldSTX x => execLdSTX x s
  | .addIX x => execAddIX x s
  | .ldFX x => execLdFX x s
  | .ldBX x => execLdBX x s
  | .ldMemX x => execLdMemX x s
  | .ldXMem x => execLdXMem x s

/-- STEP at any parameters. -/
def stepAt (s : State cfg) : Host.Outcome (State cfg) Fault Refusal := stepBy execAt s

end Sys2Proof.Machine
end

