-- ==== Sys2Proof/Machine/Transactions.lean ====
section
/-! DEFINITION. The host interface (60_exceptions.md rules R213 and R217 to R223): every transaction, with its effect on
the state and its result. Each is one atomic function of the state, allowed in every run state (D1, D37; log 24). -/

namespace Sys2Proof.Machine

variable {cfg : Params}

/-- The host's transactions (60_exceptions.md rule R217). STEP's random byte is the free value `State.randomInput`
(log 6). -/
inductive Transaction where
  | reset
  | load (addr : Nat) (bytes : List Byte)
  | installFont (addr : Nat) (glyphs : List Byte)
  | step
  | tick
  /-- The host passes a key number, or none. -/
  | setKey (key : Option Nat)
  | readFramebuffer
  | readSoundTimer
  | inspect
  deriving DecidableEq, Repr

/-- What a transaction returns to the host. -/
inductive Response (cfg : Params := Config.params) where
  | ok
  | memoryOutOfBounds
  | rejected
  | stepped (r : StepResult)
  | framebuffer (g : Framebuffer cfg)
  | soundTimer (v : Byte)
  | state (s : State cfg)
  deriving DecidableEq, Repr

/-- RESET (70_reset_and_hazards.md rule R240), the only way out of FAULTED (60_exceptions.md rule R213). The count of
random draws is no state of the machine and goes on, so that later draws are still fresh (log 6). -/
def State.restarted (s : State cfg) : State cfg := { State.resetAt cfg with draws := s.draws }

/-- LOAD(address, bytes) (60_exceptions.md rule R218). -/
def State.load (s : State cfg) (addr : Nat) (bytes : List Byte) : State cfg × Response cfg :=
  if rangeRefused addr bytes.length then (s, .memoryOutOfBounds) else (s.setMem (s.mem.setMany addr bytes), .ok)

/-- INSTALL_FONT(address, glyphs) (60_exceptions.md rule R219). -/
def State.installFont (s : State cfg) (addr : Nat) (glyphs : List Byte) : State cfg × Response cfg :=
  if glyphs.length = Config.fontBytes ∧ inRange addr Config.fontBytes = true then
    ({ s with mem := s.mem.setMany addr glyphs, fontBase := BitVec.ofNat 16 addr }, .ok)
  else (s, .memoryOutOfBounds)

/-- A timer one tick later, with floor 0 (60_exceptions.md rule R220). -/
def tickTimer (t : Byte) : Byte := if t.toNat > 0 then t - 1#8 else t

/-- TICK (60_exceptions.md rule R220). -/
def State.tick (s : State cfg) : State cfg := { s with DT := tickTimer s.DT, ST := tickTimer s.ST }

/-- SET_KEY(k) (60_exceptions.md rule R221). -/
def State.setKey (s : State cfg) (key : Option Nat) : State cfg × Response cfg :=
  match key with
  | none => ({ s with keyValid := false, keyValue := 0 }, .ok)
  | some k => if h : k < 16 then ({ s with keyValid := true, keyValue := ⟨k, h⟩ }, .ok) else (s, .rejected)

/-- The sound output is on exactly when ST ≠ 0 (60_exceptions.md rule R222; D35). -/
def State.soundActive (s : State cfg) : Bool := s.ST != 0#8

/-- STEP as a transaction, over the meaning `run` of the instructions: the state it ends in and its result
(40_step_cycle.md rule R98). -/
def stepTransaction (run : Instr → State cfg → Host.Outcome (State cfg) Fault Refusal) (s : State cfg) :
    Host.Outcome (State cfg × Response cfg) Fault Refusal :=
  match stepBy run s with
  | .next t => .next (t, .stepped t.stepResult)
  | .fault r => .fault r
  | .refused r => .refused r

/-- One transaction, over the meaning `run` of the instructions. -/
def transactBy (run : Instr → State cfg → Host.Outcome (State cfg) Fault Refusal) (t : Transaction) (s : State cfg) :
    Host.Outcome (State cfg × Response cfg) Fault Refusal :=
  match t with
  | .reset => .next (s.restarted, .ok)
  | .load addr bytes => .next (s.load addr bytes)
  | .installFont addr glyphs => .next (s.installFont addr glyphs)
  | .step => stepTransaction run s
  | .tick => .next (s.tick, .ok)
  | .setKey key => .next (s.setKey key)
  | .readFramebuffer => .next (s, .framebuffer s.fb)
  | .readSoundTimer => .next (s, .soundTimer s.ST)
  | .inspect => .next (s, .state s)

/-- One transaction at the values the spec decides. -/
def transact (t : Transaction) (s : State) : Host.Outcome (State × Response) Fault Refusal := transactBy exec t s

/-- One transaction at any parameters (00_scope.md rule R9). -/
def transactAt (t : Transaction) (s : State cfg) : Host.Outcome (State cfg × Response cfg) Fault Refusal :=
  transactBy execAt t s

/-- A session: transactions one after another (60_exceptions.md rule R217, "the host issues them one at a time"). -/
def session : List Transaction → State → Host.Outcome State Fault Refusal
  | [], s => .next s
  | t :: ts, s =>
    match transact t s with
    | .next p => session ts p.1
    | .fault r => .fault r
    | .refused r => .refused r

end Sys2Proof.Machine
end

