-- ==== Sys2Proof/Safety.lean ====
section
/-! DEFINITION. The terms claims use: what a safe state is, the invariant of the machine, and what each instruction may
write and when it may raise, written from the spec's tables and not from the meanings. -/

namespace Sys2Proof.Machine

variable {cfg : Params}

/-- A safe state: no error has stopped the engine (10_state.md rule R34). A run is safe when it stays in safe states. -/
def State.Safe (s : State cfg) : Prop := s.runState ≠ .faulted

/-- The invariant of the machine, kept by every step and every host transaction.
Memory is canonical; `font_base <= 4016` (60_exceptions.md rule R219); the engine is FAULTED exactly when a fault is
recorded (R212, R213), and the record is then what 60_exceptions.md rule R210 tabulates: PC still names the failing
instruction, and the cause it names is there to be seen. -/
structure State.Inv (s : State cfg) : Prop where
  memCanonical      : s.mem.wf = true
  fontInside        : s.fontBase.toNat ≤ 4016
  faultedIff        : s.runState = .faulted ↔ s.fault.kind ≠ .none
  clearRecord       : s.fault.kind = .none → s.fault = FaultRecord.clear
  faultAtPC         : s.runState = .faulted → s.fault.pc = s.PC
  addrOnlyForMemory : s.fault.kind ≠ .memoryOutOfBounds → s.fault.addr = 0#16
  addrOutside       : s.fault.kind = .memoryOutOfBounds → 4096 ≤ s.fault.addr.toNat
  overflowFull      : s.fault.kind = .stackOverflow → s.SP.val = 16 ∧ ∃ nnn, s.fault.word = encode (.call nnn)
  underflowEmpty    : s.fault.kind = .stackUnderflow → s.SP.val = 0 ∧ s.fault.word = encode .ret
  illegalWord       : s.fault.kind = .invalidInstruction → ∀ i, decode s.fault.word ≠ .ok i

end Sys2Proof.Machine

namespace Sys2Proof.Instr

open Sys2Proof.Machine

variable {cfg : Params}

/-- The registers an instruction may write: its destination, and VF for the flag instructions (10_state.md rules R21
and R23; 40_step_cycle.md rule R101). -/
def mayWriteReg (i : Instr) (r : Reg) : Bool :=
  match i with
  | .ldImm x _ | .addImm x _ | .rnd x _ => r == x
  | .ldReg x _ | .orReg x _ | .andReg x _ | .xorReg x _ => r == x
  | .addReg x _ | .sub x _ | .shr x _ | .subn x _ | .shl x _ => r == x || r == 15
  | .drw _ _ _ => r == 15
  | .ldXDT x | .ldXK x => r == x
  | .ldXMem x => decide (r ≤ x)
  | .cls | .ret | .jp _ | .call _ | .seImm _ _ | .sneImm _ _ | .seReg _ _ | .sneReg _ _ | .ldI _ | .jpV0 _ => false
  | .skp _ | .sknp _ | .ldDTX _ | .ldSTX _ | .addIX _ | .ldFX _ | .ldBX _ | .ldMemX _ => false

/-- The bytes an instruction stores to, counted from the address I holds (20_memory.md rule R56, the column "writes"). -/
def storedBytes (i : Instr) : Nat :=
  match i with
  | .ldBX _ => 3
  | .ldMemX x => x.val + 1
  | .cls | .ret | .jp _ | .call _ | .seImm _ _ | .sneImm _ _ | .seReg _ _ | .sneReg _ _ | .ldI _ | .jpV0 _ => 0
  | .ldImm _ _ | .addImm _ _ | .rnd _ _ | .ldReg _ _ | .orReg _ _ | .andReg _ _ | .xorReg _ _ => 0
  | .addReg _ _ | .sub _ _ | .shr _ _ | .subn _ _ | .shl _ _ | .drw _ _ _ => 0
  | .skp _ | .sknp _ | .ldXDT _ | .ldXK _ | .ldDTX _ | .ldSTX _ | .addIX _ | .ldFX _ | .ldXMem _ => 0

/-- The bytes an instruction touches from the address I holds (20_memory.md rules R53 and R56). -/
def touchedBytes (i : Instr) : Nat :=
  match i with
  | .drw _ _ n => n.val
  | .ldBX _ => 3
  | .ldMemX x => x.val + 1
  | .ldXMem x => x.val + 1
  | .cls | .ret | .jp _ | .call _ | .seImm _ _ | .sneImm _ _ | .seReg _ _ | .sneReg _ _ | .ldI _ | .jpV0 _ => 0
  | .ldImm _ _ | .addImm _ _ | .rnd _ _ | .ldReg _ _ | .orReg _ _ | .andReg _ _ | .xorReg _ _ => 0
  | .addReg _ _ | .sub _ _ | .shr _ _ | .subn _ _ | .shl _ _ => 0
  | .skp _ | .sknp _ | .ldXDT _ | .ldXK _ | .ldDTX _ | .ldSTX _ | .addIX _ | .ldFX _ => 0

/-- The instructions that may set PC to something other than the next instruction (41_control_flow.md rule R118;
40_step_cycle.md rule R104). -/
def isTransfer (i : Instr) : Bool :=
  match i with
  | .ret | .jp _ | .call _ | .jpV0 _ | .seImm _ _ | .sneImm _ _ | .seReg _ _ | .sneReg _ _ | .skp _ | .sknp _ => true
  | .cls | .ldImm _ _ | .addImm _ _ | .rnd _ _ | .ldReg _ _ | .orReg _ _ | .andReg _ _ | .xorReg _ _ => false
  | .addReg _ _ | .sub _ _ | .shr _ _ | .subn _ _ | .shl _ _ | .drw _ _ _ | .ldI _ => false
  | .ldXDT _ | .ldXK _ | .ldDTX _ | .ldSTX _ | .addIX _ | .ldFX _ | .ldBX _ | .ldMemX _ | .ldXMem _ => false

/-- The error of an access to k bytes from the address I holds: none when it touches nothing or stays in memory, else
the lowest address above 4095 (20_memory.md rule R53). -/
def rangeError (s : State cfg) (k : Nat) : Option (FaultKind × Nat) :=
  if k = 0 ∨ s.I.toNat + k ≤ 4096 then none else some (.memoryOutOfBounds, max s.I.toNat 4096)

/-- The error an instruction raises in a state, with its address, as 60_exceptions.md rule R210 tabulates it: SP for
2nnn and 00EE, the range over I for Dxyn, Fx33, Fx55 and Fx65; "No other instruction raises an error." -/
def raises (i : Instr) (s : State cfg) : Option (FaultKind × Nat) :=
  match i with
  | .call _ => if s.SP.val = 16 then some (.stackOverflow, 0) else none
  | .ret => if s.SP.val = 0 then some (.stackUnderflow, 0) else none
  | .drw _ _ n => rangeError s n.val
  | .ldBX _ => rangeError s 3
  | .ldMemX x => rangeError s (x.val + 1)
  | .ldXMem x => rangeError s (x.val + 1)
  | .cls | .jp _ | .seImm _ _ | .sneImm _ _ | .seReg _ _ | .sneReg _ _ | .ldI _ | .jpV0 _ => none
  | .ldImm _ _ | .addImm _ _ | .rnd _ _ | .ldReg _ _ | .orReg _ _ | .andReg _ _ | .xorReg _ _ => none
  | .addReg _ _ | .sub _ _ | .shr _ _ | .subn _ _ | .shl _ _ => none
  | .skp _ | .sknp _ | .ldXDT _ | .ldXK _ | .ldDTX _ | .ldSTX _ | .addIX _ | .ldFX _ => none

end Sys2Proof.Instr
end

