-- ==== Sys2Proof/Certificates/Slice0/Obligations.lean ====
section
/-! DEFINITION. The statements for the provers. Each docstring names the rule of spec/ a statement formalises; where a
clause rests on a decision the spec marks as its own (D<n> of 92_eei_decisions.md), it says so. `exec i s` runs `i` in the
state at the START of its step, PC still at pc0. -/

open Sys2Proof Sys2Proof.Machine

/-! ### Encoding -/

/-- Decoding the word of any instruction gives that instruction, with every operand; the same through the bytes as
memory holds them (30_encoding.md sections 1 to 3). -/
def Obligations.DecodeInvertsEncode : Prop :=
  ∀ i : Instr, decode (encode i) = .ok i ∧ ∀ rest, decodeBytes (encodeBytes i ++ rest) = .ok (i, rest)

/-- Every legal word has one reading and no bit of it is dropped: the word of the decoded instruction is the word
(30_encoding.md sections 1 to 3). -/
def Obligations.EncodeInvertsDecode : Prop :=
  ∀ (w : Word) (i : Instr), decode w = .ok i → encode i = w

/-- The decoder accepts exactly the words that match a row of the opcode table, and no word matches two rows
(30_encoding.md sections 3 and 4; the strictness of 5xy0, 9xy0, 00E0 and 00EE is the spec's decision D9). -/
def Obligations.DecodeAcceptsExactlyTheTable : Prop :=
  ∀ w : Word,
    ((∃ i, decode w = .ok i) ↔ wordLegal w = true) ∧
    (∀ r₁ ∈ opcodeTable, ∀ r₂ ∈ opcodeTable, r₁.admits w = true → r₂.admits w = true → r₁ = r₂)

/-- The counts behind the table of illegal words of 30_encoding.md section 4, class by class: 254 of 256 selectors in
the E family, 247 of 256 in the F family, 7 of 16 in the 8 family, 15 of 16 under ops 5 and 9, for every x (and y), and
every word of op 0 but 00E0 and 00EE (the classes of ops 0, 5 and 9 rest on the spec's decision D9). -/
def Obligations.IllegalWordsPerClass : Prop :=
  (∀ x : BitVec 4,
    ((List.range 256).countP fun nn => !(decode (0xE#4 ++ (x ++ BitVec.ofNat 8 nn : BitVec 12))).isOk) = 254 ∧
    ((List.range 256).countP fun nn => !(decode (0xF#4 ++ (x ++ BitVec.ofNat 8 nn : BitVec 12))).isOk) = 247) ∧
  (∀ x y : BitVec 4,
    ((List.range 16).countP fun n =>
      !(decode (0x8#4 ++ (x ++ (y ++ BitVec.ofNat 4 n : BitVec 8) : BitVec 12))).isOk) = 7 ∧
    ((List.range 16).countP fun n =>
      !(decode (0x5#4 ++ (x ++ (y ++ BitVec.ofNat 4 n : BitVec 8) : BitVec 12))).isOk) = 15 ∧
    ((List.range 16).countP fun n =>
      !(decode (0x9#4 ++ (x ++ (y ++ BitVec.ofNat 4 n : BitVec 8) : BitVec 12))).isOk) = 15) ∧
  (∀ nnn : Addr12, (decode (0x0#4 ++ nnn)).isOk = true ↔ nnn = 0x0E0#12 ∨ nnn = 0x0EE#12)

/-- 30_encoding.md rule R70: an instruction is one 16-bit word of two bytes, the first byte the high one, and the
decoder takes exactly these two bytes whatever follows. -/
def Obligations.InstructionIsTwoBytes : Prop :=
  (∀ (hi lo : Byte) (rest rest' : List Byte) (i : Instr),
    decodeBytes (hi :: lo :: rest) = .ok (i, rest') ↔ decode (hi ++ lo) = .ok i ∧ rest' = rest) ∧
  (∀ i : Instr, (encodeBytes i).length = 2)

/-- A word of each format of 30_encoding.md section 1, written out bit by bit, and one illegal word, 0x5121, which is
illegal by the spec's decision D9 (log 9). -/
def Obligations.WrittenOutWordsDecode : Prop :=
  decode 0b0000000011101110#16 = .ok .ret ∧
  decode 0b0010001100000001#16 = .ok (.call 0x301#12) ∧
  decode 0b0111101011111111#16 = .ok (.addImm 10 0xFF#8) ∧
  decode 0b1000000100100101#16 = .ok (.sub 1 2) ∧
  decode 0b1101111100010110#16 = .ok (.drw 15 1 6) ∧
  decode 0b1111011101100101#16 = .ok (.ldXMem 7) ∧
  decode 0b0101000100100001#16 = .error .op5Unlisted

/-! ### The step -/

/-- When the engine is RUNNING and the bytes at PC decode to `i`, the step is `exec i` in that state, and nothing is
added around it: `exec` itself starts from pc0 and makes the fetch advance (40_step_cycle.md section 1). -/
def Obligations.StepRunsDecodedInstruction : Prop :=
  ∀ (s : State) (i : Instr), s.runState = .running → s.PC.toNat ≤ 4094 →
    decode (s.mem.get s.PC.toNat ++ s.mem.get (s.PC.toNat + 1)) = .ok i → step s = exec i s

/-- 40_step_cycle.md rule R91: the fetch reads the big-endian word at pc0 exactly when pc0 <= 4094, even or odd; above
that the step raises MemoryOutOfBounds with pc = pc0, word = 0 and addr = FirstOOB(pc0, 2). -/
def Obligations.FetchIsBoundedAndBigEndian : Prop :=
  ∀ s : State,
    (∀ w, fetch s = .ok w ↔ s.PC.toNat ≤ 4094 ∧ w = s.mem.get s.PC.toNat ++ s.mem.get (s.PC.toNat + 1)) ∧
    (s.runState = .running → 4094 < s.PC.toNat →
      ∃ t, step s = .next t ∧ t.runState = .faulted ∧ t.fault.kind = .memoryOutOfBounds ∧ t.fault.pc = s.PC ∧
        t.fault.word = 0#16 ∧ t.fault.addr.toNat = max s.PC.toNat 4096)

/-- 40_step_cycle.md rule R94: an illegal word raises InvalidInstruction with pc = pc0, word = w and addr = 0. -/
def Obligations.IllegalWordRaisesInvalidInstruction : Prop :=
  ∀ (s : State) (w : Word), s.runState = .running → fetch s = .ok w → (∀ i, decode w ≠ .ok i) →
    ∃ t, step s = .next t ∧ t.runState = .faulted ∧ t.fault = ⟨.invalidInstruction, s.PC, w, 0#16⟩

/-- Errors are precise: a step that ends FAULTED changed nothing but the fault record and the run state, so PC is still
pc0, and the record names pc0 and an error (the spec's decision D10 for what an error leaves; 40_step_cycle.md section 1,
60_exceptions.md section 2). -/
def Obligations.ErrorsArePrecise : Prop :=
  ∀ s t : State, s.runState = .running → step s = .next t → t.runState = .faulted →
    t = { s with fault := t.fault, runState := .faulted } ∧ t.fault.pc = s.PC ∧ t.fault.kind ≠ .none

/-- Which instruction raises which error, and when, with the whole record; every other instruction raises nothing
(the table of 60_exceptions.md section 1; what the error leaves is the spec's decision D10, the record D31). -/
def Obligations.OnlyTabulatedErrorsAreRaised : Prop :=
  ∀ (i : Instr) (s : State),
    match i.raises s with
    | some (kind, addr) =>
      exec i s = .next { s with fault := ⟨kind, s.PC, encode i, BitVec.ofNat 16 addr⟩, runState := .faulted }
    | none => ∃ t, exec i s = .next t ∧ t.fault = s.fault ∧ (t.runState = .faulted → s.runState = .faulted)

/-- 20_memory.md rule R53: the I-relative instructions check their whole range first; out of range they raise
MemoryOutOfBounds at the lowest address outside memory with no byte read or written, in range they raise nothing. -/
def Obligations.IndexRelativeAccessesAreBoundsChecked : Prop :=
  ∀ (i : Instr) (s : State), 0 < i.touchedBytes →
    (4096 < s.I.toNat + i.touchedBytes →
      ∃ t, exec i s = .next t ∧ t.runState = .faulted ∧ t.fault.kind = .memoryOutOfBounds ∧
        t.fault.addr.toNat = max s.I.toNat 4096 ∧ t.mem = s.mem ∧ t.V = s.V ∧ t.fb = s.fb) ∧
    (s.I.toNat + i.touchedBytes ≤ 4096 → ∃ t, exec i s = .next t ∧ t.fault = s.fault ∧ t.runState = s.runState)

/-- STEP while awaiting a key fetches nothing: with a key latched it writes the waiting register and runs on, without
one it changes nothing (the spec's decision D13, and D14 for the latch, which is kept; 40_step_cycle.md section 1). -/
def Obligations.AwaitKeyStepCompletesTheWait : Prop :=
  ∀ s : State, s.runState = .awaitKey →
    (s.keyValid = true → ∃ t, step s = .next t ∧ t.stepResult = .ok ∧
      t = { s with V := t.V, runState := .running } ∧ (t.reg s.waitX).toNat = s.keyValue.val ∧
      ∀ r, r ≠ s.waitX → t.reg r = s.reg r) ∧
    (s.keyValid = false → step s = .next s ∧ s.stepResult = .awaitingKey)

/-- AWAIT_KEY is entered by Fx0A with no key latched and by nothing else, and the step's result says so
(10_state.md section 4; the wait state is the spec's decision D13). -/
def Obligations.OnlyKeyWaitInstructionAwaits : Prop :=
  ∀ s t : State, s.runState = .running → step s = .next t →
    (t.stepResult = .awaitingKey ↔ ∃ x, fetch s = .ok (encode (.ldXK x)) ∧ s.keyValid = false)

/-- A step always ends in a next state, and so does every host transaction: nothing this hardware can be asked to do
stops the model (60_exceptions.md sections 2 and 4). That an error is a next state is the model's form of the spec's fault
entry (log 7). -/
def Obligations.EveryTransactionCompletes : Prop :=
  (∀ s, ∃ t, step s = .next t) ∧ (∀ tr s, ∃ p, transact tr s = .next p)

/-- Once FAULTED, no sequence of host transactions without a RESET changes the fault record, the run state or anything
an instruction writes, with two exceptions the host has: memory (LOAD, INSTALL_FONT) and the two timers DT and ST, which
TICK may lower and nothing raises (60_exceptions.md section 2; FAULTED being sticky is the spec's decision D11, what is
allowed while FAULTED D37, and that TICK counts on D22, log 17). -/
def Obligations.FaultedStaysUntilReset : Prop :=
  ∀ (trs : List Transaction) (s : State), s.runState = .faulted → (∀ tr ∈ trs, tr ≠ .reset) →
    ∃ t, session trs s = .next t ∧
      t = { s with DT := t.DT, ST := t.ST, mem := t.mem, keyValid := t.keyValid, keyValue := t.keyValue,
                   fontBase := t.fontBase } ∧
      t.DT.toNat ≤ s.DT.toNat ∧ t.ST.toNat ≤ s.ST.toNat

/-- RESET leaves FAULTED, and every other state, for the reset state; the engine then runs and no fault is recorded
(60_exceptions.md section 2; the reset values are the spec's decision D2 and D3). The count of random draws is the model's
own field (log 6) and goes on. -/
def Obligations.ResetRestartsFromAnyState : Prop :=
  ∀ s : State, ∃ t, transact .reset s = .next (t, .ok) ∧ t.runState = .running ∧ t.fault = ⟨.none, 0, 0, 0⟩ ∧
    t.PC = 0x200#16 ∧ t.I = 0 ∧ t.SP = 0 ∧ t.DT = 0 ∧ t.ST = 0 ∧ t.keyValid = false ∧ t.keyValue = 0 ∧
    t.fontBase = 0 ∧ t.waitX = 0 ∧ (∀ r, t.reg r = 0) ∧ (∀ k : Fin 16, t.stack[k] = 0) ∧
    (∀ a, t.mem.get a = 0) ∧ (∀ (r : Fin 32) (c : Fin 64), t.fb.pixel r c = false) ∧
    t = { State.reset with draws := s.draws }

/-! ### Invariants -/

/-- The reset state meets the machine's invariant (70_reset_and_hazards.md section 1). It rests on the reset values, the
spec's decision D2 (log 1), and on the canonical form of memory, the model's choice (log 15). -/
def Obligations.ResetMeetsTheInvariant : Prop := State.reset.Inv

/-- Every step from a state that meets the invariant ends in one that meets it: memory stays canonical, font_base stays
inside, and the engine is FAULTED exactly when the record names an error that its state still shows
(10_state.md section 4; 60_exceptions.md sections 1 and 2). What an error leaves and records is the spec's decision D10 and
D31, that FAULTED stays D11, the font's bound D23; the canonical form of memory is the model's (log 15). -/
def Obligations.StepKeepsTheInvariant : Prop :=
  ∀ s t : State, s.Inv → step s = .next t → t.Inv

/-- Every session of host transactions, steps among them, keeps the invariant (60_exceptions.md section 4; the decisions
the invariant rests on are those of StepKeepsTheInvariant, and D37 for what is allowed in which run state). -/
def Obligations.SessionKeepsTheInvariant : Prop :=
  ∀ (trs : List Transaction) (s t : State), s.Inv → session trs s = .next t → t.Inv

/-! ### Frames -/

/-- The register frame: an instruction writes no register but its destination and, for the flag instructions, VF
(10_state.md section 1; 40_step_cycle.md section 2). -/
def Obligations.OtherRegistersAreUnchanged : Prop :=
  ∀ (i : Instr) (s t : State), exec i s = .next t → ∀ r, i.mayWriteReg r = false → t.reg r = s.reg r

/-- The memory frame: every byte outside the bytes an instruction stores at I reads as before, and a form that stores
nothing leaves every byte (20_memory.md section 4; `base` is the address the meanings store to). -/
def Obligations.OtherMemoryIsUnchanged : Prop :=
  ∀ (i : Instr) (s t : State), exec i s = .next t →
    ∀ a, a < s.base ∨ s.base + i.storedBytes ≤ a → t.mem.get a = s.mem.get a

/-- The frame of the other state: I, the stack, the timers, the framebuffer, the key latch, font_base, wait_x and the
draw count change only by the instructions that write them (the table of 10_state.md section 5; the draw count is the
model's own field, log 6; that no opcode changes the latch is the spec's decision D14). -/
def Obligations.OtherStateIsUnchanged : Prop :=
  ∀ (i : Instr) (s t : State), exec i s = .next t →
    (t.I ≠ s.I → (∃ nnn, i = .ldI nnn) ∨ (∃ x, i = .addIX x) ∨ (∃ x, i = .ldFX x)) ∧
    (t.SP ≠ s.SP → i = .ret ∨ ∃ nnn, i = .call nnn) ∧
    (∀ k : Fin 16, t.stack[k] ≠ s.stack[k] → k.val = s.SP.val ∧ ∃ nnn, i = .call nnn) ∧
    (t.DT ≠ s.DT → ∃ x, i = .ldDTX x) ∧ (t.ST ≠ s.ST → ∃ x, i = .ldSTX x) ∧
    (t.fb ≠ s.fb → i = .cls ∨ ∃ x y n, i = .drw x y n) ∧
    t.keyValid = s.keyValid ∧ t.keyValue = s.keyValue ∧ t.fontBase = s.fontBase ∧
    (t.waitX ≠ s.waitX → ∃ x, i = .ldXK x) ∧ (t.draws ≠ s.draws → ∃ x nn, i = .rnd x nn)

/-- PC after an instruction that is no jump, call, return or skip: the next instruction, unless the instruction raised
an error, which leaves pc0 (40_step_cycle.md sections 1 and 2; the error clause is the spec's decision D10). -/
def Obligations.SequentialInstructionsAdvanceByTwo : Prop :=
  ∀ (i : Instr) (s t : State), i.isTransfer = false → s.runState = .running → exec i s = .next t →
    t.PC = if t.runState = .faulted then s.PC else s.PC + 2#16

/-- No instruction reads ST back: a step from two states that differ in ST alone ends in two states that differ in ST
alone (45_keys_timers.md, Fx18 and the summary of the timer opcodes). That Fx07 reads DT and Fx18 writes ST is the spec's
decision D36 (log 25). -/
def Obligations.NoInstructionReadsSoundTimer : Prop :=
  ∀ (s t : State) (v : Byte), step s = .next t → ∃ u, step { s with ST := v } = .next { t with ST := u }

/-- The stale stack slots, at SP and above, are read by no instruction: whatever they hold, a step ends in the same state
but for slots at the new SP and above (10_state.md section 6). -/
def Obligations.StaleStackSlotsAreNotRead : Prop :=
  ∀ (s t : State) (k : Fin 16) (v : Word), s.SP.val ≤ k.val → step s = .next t →
    ∃ stack', step { s with stack := s.stack.set k.val v k.isLt } = .next { t with stack := stack' } ∧
      ∀ j : Fin 16, j.val < t.SP.val → stack'[j] = t.stack[j]

/-! ### Control transfer -/

/-- 41_control_flow.md rule R111: 1nnn loads PC with nnn and changes nothing else; `nnn = pc0` changes nothing at all;
a target of 4095 faults at the next fetch. -/
def Obligations.JumpLoadsTarget : Prop :=
  ∀ (nnn : Addr12) (s : State),
    decode (0x1#4 ++ nnn) = .ok (.jp nnn) ∧
    (∃ pc : Word, pc.toNat = nnn.toNat ∧ exec (.jp nnn) s = .next { s with PC := pc }) ∧
    (s.PC.toNat = nnn.toNat → exec (.jp nnn) s = .next s) ∧
    (s.runState = .running → nnn.toNat = 4095 →
      ∃ t u, exec (.jp nnn) s = .next t ∧ step t = .next u ∧ u.fault.kind = .memoryOutOfBounds)

/-- 2nnn pushes pc0 + 2 and jumps; with SP = 16 it raises StackOverflow and leaves the state unchanged but for the error
itself (41_control_flow.md rule R112). The clause that an 00EE right after the call returns to pc0 + 2 is R112's sentence
marked as derived from R110 and R112, so the statement is derived. -/
def Obligations.CallPushesReturnAddress : Prop :=
  ∀ (nnn : Addr12) (s : State),
    decode (0x2#4 ++ nnn) = .ok (.call nnn) ∧
    (s.SP.val < 16 → ∃ t, exec (.call nnn) s = .next t ∧ t = { s with PC := t.PC, stack := t.stack, SP := t.SP } ∧
      t.PC.toNat = nnn.toNat ∧ t.SP.val = s.SP.val + 1 ∧
      (∀ k : Fin 16, t.stack[k] = if k.val = s.SP.val then s.PC + 2#16 else s.stack[k]) ∧
      ∃ u, exec .ret t = .next u ∧ u.PC = s.PC + 2#16 ∧ u.SP = s.SP) ∧
    (s.SP.val = 16 → ∃ t, exec (.call nnn) s = .next t ∧ t.fault.kind = .stackOverflow ∧
      t = { s with fault := t.fault, runState := .faulted })

/-- 00EE pops the return address into PC, unchecked (the spec's decision D39), the slot keeping its value (D25); with
SP = 0 it raises StackUnderflow (D12) and leaves the rest unchanged (41_control_flow.md, 00EE). -/
def Obligations.ReturnPopsOrUnderflows : Prop :=
  ∀ s : State,
    (∀ k : Fin 16, s.SP.val = k.val + 1 → ∃ t, exec .ret s = .next t ∧ t = { s with PC := t.PC, SP := t.SP } ∧
      t.PC = s.stack[k] ∧ t.SP.val = k.val) ∧
    (s.SP.val = 0 → exec .ret s =
      .next { s with fault := ⟨.stackUnderflow, s.PC, 0x00EE#16, 0#16⟩, runState := .faulted })

/-- 41_control_flow.md rules R113 and R114: 3xnn skips exactly one instruction when V[x] = nn, 4xnn when V[x] ≠ nn; PC
moves by 4 or by 2, and nothing else changes. A skip past the end of memory faults at the next fetch. -/
def Obligations.ImmediateSkips : Prop :=
  ∀ (x : Reg) (nn : Byte) (s : State),
    decode (0x3#4 ++ (BitVec.ofNat 4 x.val ++ nn : BitVec 12)) = .ok (.seImm x nn) ∧
    decode (0x4#4 ++ (BitVec.ofNat 4 x.val ++ nn : BitVec 12)) = .ok (.sneImm x nn) ∧
    exec (.seImm x nn) s = .next { s with PC := if s.reg x = nn then s.PC + 4#16 else s.PC + 2#16 } ∧
    exec (.sneImm x nn) s = .next { s with PC := if s.reg x = nn then s.PC + 2#16 else s.PC + 4#16 } ∧
    ∀ t, exec (.seImm x nn) s = .next t ∨ exec (.sneImm x nn) s = .next t → s.runState = .running →
      4094 < t.PC.toNat → ∃ u, step t = .next u ∧ u.fault.kind = .memoryOutOfBounds ∧ u.PC = t.PC

/-- 5xy0 skips when V[x] = V[y], always with x = y; 9xy0 when they differ, never with x = y (41_control_flow.md, 5xy0
and 9xy0). With a low nibble N ≠ 0 the words are no instruction (the spec's decision D9). -/
def Obligations.RegisterSkips : Prop :=
  ∀ (x y : Reg) (s : State),
    exec (.seReg x y) s = .next { s with PC := if s.reg x = s.reg y then s.PC + 4#16 else s.PC + 2#16 } ∧
    exec (.sneReg x y) s = .next { s with PC := if s.reg x = s.reg y then s.PC + 2#16 else s.PC + 4#16 } ∧
    exec (.seReg x x) s = .next { s with PC := s.PC + 4#16 } ∧
    exec (.sneReg x x) s = .next { s with PC := s.PC + 2#16 } ∧
    ∀ n : BitVec 4, n ≠ 0#4 →
      decode (0x5#4 ++ (BitVec.ofNat 4 x.val ++ (BitVec.ofNat 4 y.val ++ n : BitVec 8) : BitVec 12))
        = .error .op5Unlisted ∧
      decode (0x9#4 ++ (BitVec.ofNat 4 x.val ++ (BitVec.ofNat 4 y.val ++ n : BitVec 8) : BitVec 12))
        = .error .op9Unlisted

/-- Bnnn jumps to nnn + V0, a sum that never wraps and is not masked; a sum above 4094 raises nothing at the jump and
faults at the next fetch (41_control_flow.md, Bnnn; the spec's decision D20). -/
def Obligations.OffsetJumpAddsVZero : Prop :=
  ∀ (nnn : Addr12) (s : State), ∃ pc : Word, pc.toNat = nnn.toNat + (s.reg 0).toNat ∧
    exec (.jpV0 nnn) s = .next { s with PC := pc } ∧
    (s.runState = .running → 4094 < pc.toNat →
      ∃ u, step { s with PC := pc } = .next u ∧ u.fault.kind = .memoryOutOfBounds ∧ u.PC = pc)

/-! ### Loads and the ALU -/

/-- 42_alu.md rule R130: 6xnn loads nn into V[x], VF as data when x = 15. -/
def Obligations.ImmediateLoad : Prop :=
  ∀ (x : Reg) (nn : Byte) (s : State),
    decode (0x6#4 ++ (BitVec.ofNat 4 x.val ++ nn : BitVec 12)) = .ok (.ldImm x nn) ∧
    ∃ t, exec (.ldImm x nn) s = .next t ∧ t = { s with PC := s.PC + 2#16, V := t.V } ∧
      t.reg x = nn ∧ ∀ r, r ≠ x → t.reg r = s.reg r

/-- 42_alu.md rule R131: 7xnn adds nn to V[x] modulo 256 and writes no flag: VF changes only as the destination, even
when the addition overflows; nn = 0xFF decrements. -/
def Obligations.ImmediateAddSetsNoFlag : Prop :=
  ∀ (x : Reg) (nn : Byte) (s : State),
    decode (0x7#4 ++ (BitVec.ofNat 4 x.val ++ nn : BitVec 12)) = .ok (.addImm x nn) ∧
    ∃ t, exec (.addImm x nn) s = .next t ∧ t = { s with PC := s.PC + 2#16, V := t.V } ∧
      (t.reg x).toNat = ((s.reg x).toNat + nn.toNat) % 256 ∧ (∀ r, r ≠ x → t.reg r = s.reg r) ∧
      (nn = 0xFF#8 → t.reg x = s.reg x - 1#8)

/-- 42_alu.md rules R133 to R136: copy, OR, AND and XOR write V[x] and no flag; VF is not cleared. -/
def Obligations.CopyAndLogicalWriteNoFlag : Prop :=
  ∀ (x y : Reg) (s : State),
    decode (0x8#4 ++ (BitVec.ofNat 4 x.val ++ (BitVec.ofNat 4 y.val ++ 0x0#4 : BitVec 8) : BitVec 12))
      = .ok (.ldReg x y) ∧
    decode (0x8#4 ++ (BitVec.ofNat 4 x.val ++ (BitVec.ofNat 4 y.val ++ 0x1#4 : BitVec 8) : BitVec 12))
      = .ok (.orReg x y) ∧
    decode (0x8#4 ++ (BitVec.ofNat 4 x.val ++ (BitVec.ofNat 4 y.val ++ 0x2#4 : BitVec 8) : BitVec 12))
      = .ok (.andReg x y) ∧
    decode (0x8#4 ++ (BitVec.ofNat 4 x.val ++ (BitVec.ofNat 4 y.val ++ 0x3#4 : BitVec 8) : BitVec 12))
      = .ok (.xorReg x y) ∧
    (∃ t, exec (.ldReg x y) s = .next t ∧ t = { s with PC := s.PC + 2#16, V := t.V } ∧
      t.reg x = s.reg y ∧ ∀ r, r ≠ x → t.reg r = s.reg r) ∧
    (∃ t, exec (.orReg x y) s = .next t ∧ t = { s with PC := s.PC + 2#16, V := t.V } ∧
      t.reg x = s.reg x ||| s.reg y ∧ ∀ r, r ≠ x → t.reg r = s.reg r) ∧
    (∃ t, exec (.andReg x y) s = .next t ∧ t = { s with PC := s.PC + 2#16, V := t.V } ∧
      t.reg x = s.reg x &&& s.reg y ∧ ∀ r, r ≠ x → t.reg r = s.reg r) ∧
    (∃ t, exec (.xorReg x y) s = .next t ∧ t = { s with PC := s.PC + 2#16, V := t.V } ∧
      t.reg x = s.reg x ^^^ s.reg y ∧ ∀ r, r ≠ x → t.reg r = s.reg r)

/-- 42_alu.md rule R137: 8xy4 writes the sum modulo 256 and VF = 1 exactly on carry; with x = 15 VF holds the sum, and
with y = 15 the old VF is added. -/
def Obligations.AddSetsCarry : Prop :=
  ∀ (x y : Reg) (s : State),
    decode (0x8#4 ++ (BitVec.ofNat 4 x.val ++ (BitVec.ofNat 4 y.val ++ 0x4#4 : BitVec 8) : BitVec 12))
      = .ok (.addReg x y) ∧
    ∃ t, exec (.addReg x y) s = .next t ∧ t = { s with PC := s.PC + 2#16, V := t.V } ∧
    (t.reg x).toNat = ((s.reg x).toNat + (s.reg y).toNat) % 256 ∧
    (x ≠ 15 → t.reg 15 = if (s.reg x).toNat + (s.reg y).toNat > 255 then 1#8 else 0#8) ∧
    ∀ r, r ≠ x → r ≠ 15 → t.reg r = s.reg r

/-- 8xy5 and 8xy7 write the difference modulo 256; for x ≠ 15 VF = 1 exactly when a borrow occurs, `SUB_FLAG_SENSE =
BORROW` (42_alu.md, 8xy5 and 8xy7; the sense is the spec's decision D7). With x = 15 VF holds the difference. -/
def Obligations.SubtractsSetBorrow : Prop :=
  ∀ (x y : Reg) (s : State),
    (∃ t, exec (.sub x y) s = .next t ∧ t = { s with PC := s.PC + 2#16, V := t.V } ∧
      (t.reg x).toNat = ((s.reg x).toNat + 256 - (s.reg y).toNat) % 256 ∧
      (x ≠ 15 → t.reg 15 = if (s.reg x).toNat < (s.reg y).toNat then 1#8 else 0#8) ∧
      ∀ r, r ≠ x → r ≠ 15 → t.reg r = s.reg r) ∧
    (∃ t, exec (.subn x y) s = .next t ∧ t = { s with PC := s.PC + 2#16, V := t.V } ∧
      (t.reg x).toNat = ((s.reg y).toNat + 256 - (s.reg x).toNat) % 256 ∧
      (x ≠ 15 → t.reg 15 = if (s.reg y).toNat < (s.reg x).toNat then 1#8 else 0#8) ∧
      ∀ r, r ≠ x → r ≠ 15 → t.reg r = s.reg r)

/-- 8xy6 and 8xyE shift V[x] by one in place, y ignored (`SHIFT_SOURCE = X`, the right shift logical: the spec's decision
D6); for x ≠ 15 VF is the bit shifted out, with x = 15 the shifted value (42_alu.md, 8xy6 and 8xyE). -/
def Obligations.ShiftsSetShiftedOutBit : Prop :=
  ∀ (x y : Reg) (s : State),
    (∃ t, exec (.shr x y) s = .next t ∧ t = { s with PC := s.PC + 2#16, V := t.V } ∧
      (t.reg x).toNat = (s.reg x).toNat / 2 ∧ (x ≠ 15 → (t.reg 15).toNat = (s.reg x).toNat % 2) ∧
      ∀ r, r ≠ x → r ≠ 15 → t.reg r = s.reg r) ∧
    (∃ t, exec (.shl x y) s = .next t ∧ t = { s with PC := s.PC + 2#16, V := t.V } ∧
      (t.reg x).toNat = (s.reg x).toNat * 2 % 256 ∧ (x ≠ 15 → (t.reg 15).toNat = (s.reg x).toNat / 128) ∧
      ∀ r, r ≠ x → r ≠ 15 → t.reg r = s.reg r)

/-- "The model takes each one as an argument" (00_scope.md section 4): the machine at ANY parameters. The ALU functions take
the operand and the flag the parameters name; at any parameters RESET starts at LOAD_ADDR, a subtraction sets VF in the
sense SUB_FLAG_SENSE, a shift takes the register SHIFT_SOURCE names, Cxnn takes the byte of the random source, and Dxyn
wraps modulo DISPLAY_W and DISPLAY_H; and at the decided values the machine is `exec`, `step` and `transact`. What the
parameters are and their values are the spec's decisions D3, D4, D6, D7 and D24; the logical right shift is D6, the order
of a sprite's bits D5. The draw clause is for a display on which a sprite meets no pixel twice. -/
def Obligations.OpenParametersBothWays : Prop :=
  (∀ a b : Byte,
    (aluSub .borrow a b).1 = a - b ∧ (aluSub .notBorrow a b).1 = a - b ∧
    (aluSub .borrow a b).2 = some (decide (a.toNat < b.toNat)) ∧
    (aluSub .notBorrow a b).2 = some (decide (b.toNat ≤ a.toNat)) ∧
    (∀ sense, aluSubn sense a b = aluSub sense b a) ∧
    (aluShr .x a b).1 = a >>> 1 ∧ (aluShl .x a b).1 = a <<< 1 ∧
    aluShr .y a b = aluShr .x b a ∧ aluShl .y a b = aluShl .x b a) ∧
  (∀ (i : Instr) (s : State), execAt i s = exec i s) ∧ (∀ s : State, stepAt s = step s) ∧
  (∀ (tr : Transaction) (s : State), transactAt tr s = transact tr s) ∧
  ∀ (cfg : Params) (x y : Reg) (s : State cfg),
    (∃ t, transactAt .reset s = .next (t, .ok) ∧ t.PC = cfg.loadAddr) ∧
    (∃ t, execAt (.sub x y) s = .next t ∧ t = { s with PC := s.PC + 2#16, V := t.V } ∧
      t.reg x = s.reg x - s.reg y ∧ (∀ r, r ≠ x → r ≠ 15 → t.reg r = s.reg r) ∧
      (x ≠ 15 → (t.reg 15 = 1#8 ↔ match cfg.subFlagSense with
        | .borrow => (s.reg x).toNat < (s.reg y).toNat
        | .notBorrow => (s.reg y).toNat ≤ (s.reg x).toNat) ∧ (t.reg 15).toNat ≤ 1)) ∧
    (∃ t, execAt (.subn x y) s = .next t ∧ t = { s with PC := s.PC + 2#16, V := t.V } ∧
      t.reg x = s.reg y - s.reg x ∧ (∀ r, r ≠ x → r ≠ 15 → t.reg r = s.reg r) ∧
      (x ≠ 15 → (t.reg 15 = 1#8 ↔ match cfg.subFlagSense with
        | .borrow => (s.reg y).toNat < (s.reg x).toNat
        | .notBorrow => (s.reg x).toNat ≤ (s.reg y).toNat) ∧ (t.reg 15).toNat ≤ 1)) ∧
    (∀ v : Byte, (v = match cfg.shiftSource with
        | .x => s.reg x
        | .y => s.reg y) →
      (∃ t, execAt (.shr x y) s = .next t ∧ t = { s with PC := s.PC + 2#16, V := t.V } ∧
        (t.reg x).toNat = v.toNat / 2 ∧ (∀ r, r ≠ x → r ≠ 15 → t.reg r = s.reg r) ∧
        (x ≠ 15 → (t.reg 15).toNat = v.toNat % 2)) ∧
      (∃ t, execAt (.shl x y) s = .next t ∧ t = { s with PC := s.PC + 2#16, V := t.V } ∧
        (t.reg x).toNat = v.toNat * 2 % 256 ∧ (∀ r, r ≠ x → r ≠ 15 → t.reg r = s.reg r) ∧
        (x ≠ 15 → (t.reg 15).toNat = v.toNat / 128))) ∧
    (∀ nn : Byte, ∃ t, execAt (.rnd x nn) s = .next t ∧ t.reg x = cfg.randomByte s.draws &&& nn) ∧
    (∀ n : Fin 16, 8 ≤ cfg.displayW → n.val ≤ cfg.displayH → (n.val = 0 ∨ s.I.toNat + n.val ≤ 4096) →
      ∃ t, execAt (.drw x y n) s = .next t ∧
        ∀ (r : Fin cfg.displayH) (c : Fin cfg.displayW), t.fb.pixel r c ≠ s.fb.pixel r c ↔
          ∃ j b : Nat, j < n.val ∧ b < 8 ∧ r.val = ((s.reg y).toNat + j) % cfg.displayH ∧
            c.val = ((s.reg x).toNat + b) % cfg.displayW ∧ (s.mem.get (s.base + j)).getLsbD (7 - b) = true)

/-- 42_alu.md rule R132: in the 8 family both operands are taken before any write, the flag is written before the
destination, and the codes 0 to 3 write no flag. For a flag code VF ends as the flag when x ≠ 15 and as the result when
x = 15; for the others VF changes only as the destination. -/
def Obligations.FlagIsWrittenBeforeDestination : Prop :=
  ∀ (x y : Reg) (s : State) (i : Instr) (f : Byte → Byte → AluOut),
    (i, f) ∈ [(.ldReg x y, aluCopy), (.orReg x y, aluOr), (.andReg x y, aluAnd), (.xorReg x y, aluXor),
      (.addReg x y, aluAdd), (.sub x y, aluSub Config.subFlagSense), (.shr x y, aluShr Config.shiftSource),
      (.subn x y, aluSubn Config.subFlagSense), (.shl x y, aluShl Config.shiftSource)] →
    ∃ t, exec i s = .next t ∧ t.reg x = (f (s.reg x) (s.reg y)).1 ∧
      (x ≠ 15 → t.reg 15 = match (f (s.reg x) (s.reg y)).2 with
        | some c => if c then 1#8 else 0#8
        | none => s.reg 15) ∧
      ∀ r, r ≠ x → r ≠ 15 → t.reg r = s.reg r

/-- Cxnn writes the drawn byte AND nn into V[x] and draws exactly one byte (42_alu.md, Cxnn; the draw is free, the spec's
D24). The byte is `Config.randomByte`, of which nothing is known, so this holds for every draw; the counter is the model's
own (log 6). -/
def Obligations.RandomIsMaskedDraw : Prop :=
  ∀ (x : Reg) (nn : Byte) (s : State), ∃ t, exec (.rnd x nn) s = .next t ∧
    t = { s with PC := s.PC + 2#16, V := t.V, draws := s.draws + 1 } ∧
    t.reg x = Config.randomByte s.draws &&& nn ∧ (nn = 0#8 → t.reg x = 0#8) ∧ ∀ r, r ≠ x → t.reg r = s.reg r

/-! ### Index register and memory -/

/-- 43_index_memory.md rule R160: Annn loads I with nnn, bits 15..12 zero, and changes nothing else. -/
def Obligations.IndexLoad : Prop :=
  ∀ (nnn : Addr12) (s : State),
    decode (0xA#4 ++ nnn) = .ok (.ldI nnn) ∧
    ∃ i : Word, i.toNat = nnn.toNat ∧ exec (.ldI nnn) s = .next { s with PC := s.PC + 2#16, I := i }

/-- Fx1E adds V[x] to I modulo 65536, not masked to 12 bits, and writes no flag (43_index_memory.md, Fx1E; no flag is the
spec's decision D18). -/
def Obligations.IndexAddWrapsAtSixteenBits : Prop :=
  ∀ (x : Reg) (s : State), ∃ i : Word, i.toNat = (s.I.toNat + (s.reg x).toNat) % 65536 ∧
    exec (.addIX x) s = .next { s with PC := s.PC + 2#16, I := i }

/-- Fx29 points I at font_base + 5 × V[x], with the full 8-bit V[x] (43_index_memory.md, Fx29; no mask is the spec's
decision D29); where font_base <= 4016, which the invariant keeps, the sum never wraps. -/
def Obligations.GlyphAddressIsFivePerGlyph : Prop :=
  ∀ (x : Reg) (s : State), ∃ i : Word, i.toNat = (s.fontBase.toNat + 5 * (s.reg x).toNat) % 65536 ∧
    exec (.ldFX x) s = .next { s with PC := s.PC + 2#16, I := i } ∧
    (s.fontBase.toNat ≤ 4016 → i.toNat = s.fontBase.toNat + 5 * (s.reg x).toNat)

/-- 43_index_memory.md rule R163: Fx33 stores the hundreds, tens and units digits of V[x] at I, I+1 and I+2, each a byte
from 0 to 9, and leaves I and everything else; out of range nothing is written and MemoryOutOfBounds is raised. -/
def Obligations.DecimalDigitsAreStored : Prop :=
  ∀ (x : Reg) (s : State), s.mem.wf = true →
    decode (0xF#4 ++ (BitVec.ofNat 4 x.val ++ 0x33#8 : BitVec 12)) = .ok (.ldBX x) ∧
    (s.I.toNat + 2 ≤ 4095 → ∃ t, exec (.ldBX x) s = .next t ∧ t = { s with PC := s.PC + 2#16, mem := t.mem } ∧
      (t.mem.get s.base).toNat = (s.reg x).toNat / 100 ∧
      (t.mem.get (s.base + 1)).toNat = (s.reg x).toNat / 10 % 10 ∧
      (t.mem.get (s.base + 2)).toNat = (s.reg x).toNat % 10 ∧
      (∀ j, j < 3 → (t.mem.get (s.base + j)).toNat ≤ 9) ∧
      ∀ a, a < s.base ∨ s.base + 3 ≤ a → t.mem.get a = s.mem.get a) ∧
    (4095 < s.I.toNat + 2 → ∃ t, exec (.ldBX x) s = .next t ∧ t.fault.kind = .memoryOutOfBounds ∧
      t.fault.addr.toNat = max s.I.toNat 4096 ∧ t.mem = s.mem)

/-- Fx55 stores V0..Vx, x + 1 bytes, at I..I+x and changes no register, not I either (43_index_memory.md, Fx55; I kept is
the spec's decision D17, the inclusive range its reading C5); out of range nothing is written. -/
def Obligations.RegistersAreStored : Prop :=
  ∀ (x : Reg) (s : State), s.mem.wf = true →
    (s.I.toNat + x.val ≤ 4095 → ∃ t, exec (.ldMemX x) s = .next t ∧ t = { s with PC := s.PC + 2#16, mem := t.mem } ∧
      (∀ r : Reg, r ≤ x → t.mem.get (s.base + r.val) = s.reg r) ∧
      ∀ a, a < s.base ∨ s.base + x.val < a → t.mem.get a = s.mem.get a) ∧
    (4095 < s.I.toNat + x.val → ∃ t, exec (.ldMemX x) s = .next t ∧ t.fault.kind = .memoryOutOfBounds ∧ t.mem = s.mem)

/-- Fx65 loads V0..Vx from I..I+x and changes neither I nor memory (43_index_memory.md, Fx65; I kept is the spec's
decision D17); out of range no register is written. -/
def Obligations.RegistersAreLoaded : Prop :=
  ∀ (x : Reg) (s : State),
    (s.I.toNat + x.val ≤ 4095 → ∃ t, exec (.ldXMem x) s = .next t ∧ t = { s with PC := s.PC + 2#16, V := t.V } ∧
      (∀ r : Reg, r ≤ x → t.reg r = s.mem.get (s.base + r.val)) ∧ ∀ r : Reg, x < r → t.reg r = s.reg r) ∧
    (4095 < s.I.toNat + x.val → ∃ t, exec (.ldXMem x) s = .next t ∧ t.fault.kind = .memoryOutOfBounds ∧ t.V = s.V)

/-- A store of V0..Vx followed by a load into any register bank restores them (43_index_memory.md, Fx65, an inference the
spec marks as its own from Fx55 and Fx65; 95_test_vectors.md section 1, S5). It rests on I being kept, the spec's
decision D17. -/
def Obligations.StoreThenLoadRestoresRegisters : Prop :=
  ∀ (x : Reg) (s : State) (bank : Vector Byte 16), s.mem.wf = true → s.I.toNat + x.val ≤ 4095 →
    ∃ t u, exec (.ldMemX x) s = .next t ∧ exec (.ldXMem x) { t with V := bank } = .next u ∧
      ∀ r : Reg, if r ≤ x then u.reg r = s.reg r else u.reg r = bank[r]

/-- A store is seen by the very next fetch of the stored bytes: wherever PC then points inside the stored range, the
fetched word is made of the stored registers (20_memory.md section 6; self-modifying code is the spec's decision D21). -/
def Obligations.StoredCodeIsFetched : Prop :=
  ∀ (x : Reg) (s : State) (pc : Word) (r q : Reg), s.mem.wf = true → s.I.toNat + x.val ≤ 4095 →
    pc.toNat = s.I.toNat + r.val → q.val = r.val + 1 → q ≤ x →
    ∃ t, exec (.ldMemX x) s = .next t ∧ fetch { t with PC := pc } = .ok (s.reg r ++ s.reg q)

/-- MemRead and MemWrite, the ranges of one byte, raise MemoryOutOfBounds with the address for an address above 4095;
below, a write is read back at its address and leaves every other byte (20_memory.md rule R52). That the written memory is
again in canonical form is the model's own clause, of the form it chose for memory (log 15). -/
def Obligations.MemoryPrimitives : Prop :=
  ∀ (m : Memory) (a : Nat) (v : Byte), m.wf = true →
    (4095 < a → readRange m a 1 = .error ⟨.memoryOutOfBounds, BitVec.ofNat 16 a⟩ ∧
      writeRange m a [v] = .error ⟨.memoryOutOfBounds, BitVec.ofNat 16 a⟩) ∧
    (a ≤ 4095 → readRange m a 1 = .ok [m.get a] ∧ ∃ m', writeRange m a [v] = .ok m' ∧ m'.wf = true ∧
      ∀ b, m'.get b = if b = a then v else m.get b)

/-! ### Display -/

/-- 44_display.md rule R180: 00E0 turns every pixel off and touches nothing else, VF included. -/
def Obligations.ClearTurnsEveryPixelOff : Prop :=
  ∀ s : State,
    decode 0x00E0#16 = .ok .cls ∧
    ∃ t, exec .cls s = .next t ∧ t = { s with PC := s.PC + 2#16, fb := t.fb } ∧
      ∀ (r : Fin 32) (c : Fin 64), t.fb.pixel r c = false

/-- Dxyn, pixel by pixel: a pixel is flipped exactly when a 1 bit of the sprite's n rows lands on it, coordinates
wrapping modulo 64 and 32; VF = 1 exactly when some pixel went from 1 to 0; nothing else changes (44_display.md, Dxyn). Bit
7 leftmost is the spec's decision D5, n = 0 D27, the size 64 × 32 D4, the range check D28. -/
def Obligations.DrawXorsSpriteIntoFramebuffer : Prop :=
  ∀ (x y : Reg) (n : Fin 16) (s : State), (n.val = 0 ∨ s.I.toNat + n.val ≤ 4096) →
    ∃ t, exec (.drw x y n) s = .next t ∧ t = { s with PC := s.PC + 2#16, V := t.V, fb := t.fb } ∧
      (∀ (r : Fin 32) (c : Fin 64), t.fb.pixel r c ≠ s.fb.pixel r c ↔
        ∃ j b : Nat, j < n.val ∧ b < 8 ∧ r.val = ((s.reg y).toNat + j) % 32 ∧ c.val = ((s.reg x).toNat + b) % 64 ∧
          (s.mem.get (s.base + j)).getLsbD (7 - b) = true) ∧
      (t.reg 15 = 1#8 ↔ ∃ (r : Fin 32) (c : Fin 64), s.fb.pixel r c = true ∧ t.fb.pixel r c = false) ∧
      (t.reg 15 = 1#8 ∨ t.reg 15 = 0#8) ∧ ∀ r, r ≠ 15 → t.reg r = s.reg r

/-- Drawing the same sprite twice at the same place restores the framebuffer, and the second draw sets VF exactly when it
turns off a pixel the first turned on (44_display.md, Dxyn; 90_conflicts.md C2). Coordinates in VF are left out, since the
first draw overwrites VF. That n = 0 reads nothing is the spec's decision D27, the range check D28. -/
def Obligations.DrawTwiceRestoresFramebuffer : Prop :=
  ∀ (x y : Reg) (n : Fin 16) (s : State), x ≠ 15 → y ≠ 15 → (n.val = 0 ∨ s.I.toNat + n.val ≤ 4096) →
    ∃ t u, exec (.drw x y n) s = .next t ∧ exec (.drw x y n) t = .next u ∧ u.fb = s.fb ∧
      (u.reg 15 = 1#8 ↔ ∃ (r : Fin 32) (c : Fin 64), s.fb.pixel r c = false ∧ t.fb.pixel r c = true)

/-! ### Keys and timers -/

/-- Ex9E skips when the latch is valid and names the full 8-bit V[x], ExA1 when not; V[x] > 15 names no key, and the latch
is not cleared (45_keys_timers.md, Ex9E and ExA1; the spec's decisions D14 and D16). -/
def Obligations.KeySkips : Prop :=
  ∀ (x : Reg) (s : State),
    (s.keyValid = true → (s.reg x).toNat = s.keyValue.val →
      exec (.skp x) s = .next { s with PC := s.PC + 4#16 } ∧ exec (.sknp x) s = .next { s with PC := s.PC + 2#16 }) ∧
    (s.keyValid = false ∨ (s.reg x).toNat ≠ s.keyValue.val →
      exec (.skp x) s = .next { s with PC := s.PC + 2#16 } ∧ exec (.sknp x) s = .next { s with PC := s.PC + 4#16 })

/-- Fx07 copies DT to V[x], Fx15 V[x] to DT, Fx18 V[x] to ST, and each changes nothing else (45_keys_timers.md; which opcode
is which is the spec's decision D36). -/
def Obligations.TimerCopies : Prop :=
  ∀ (x : Reg) (s : State),
    (∃ t, exec (.ldXDT x) s = .next t ∧ t = { s with PC := s.PC + 2#16, V := t.V } ∧ t.reg x = s.DT ∧
      ∀ r, r ≠ x → t.reg r = s.reg r) ∧
    exec (.ldDTX x) s = .next { s with PC := s.PC + 2#16, DT := s.reg x } ∧
    exec (.ldSTX x) s = .next { s with PC := s.PC + 2#16, ST := s.reg x }

/-- Fx0A with a key latched writes it to V[x] at once, the latch kept; without one it enters AWAIT_KEY with PC past the
Fx0A, and after SET_KEY of key k the next step writes k to V[x] and runs on (45_keys_timers.md, Fx0A; the spec's decisions
D13 and D14, the keys 0 to 15 D15). -/
def Obligations.KeyWaitStoresTheKey : Prop :=
  ∀ (x : Reg) (s : State), s.runState = .running →
    (s.keyValid = true → ∃ t, exec (.ldXK x) s = .next t ∧ t = { s with PC := s.PC + 2#16, V := t.V } ∧
      (t.reg x).toNat = s.keyValue.val ∧ ∀ r, r ≠ x → t.reg r = s.reg r) ∧
    (s.keyValid = false →
      ∃ t, exec (.ldXK x) s = .next t ∧ t = { s with PC := s.PC + 2#16, waitX := x, runState := .awaitKey } ∧
        ∀ k, k < 16 → ∃ u, session [.setKey (some k), .step] t = .next u ∧ u.runState = .running ∧
          (u.reg x).toNat = k ∧ u.PC = s.PC + 2#16)

/-! ### Host transactions -/

/-- 60_exceptions.md rule R220: TICK lowers each nonzero timer by 1 with floor 0, never fails, works in every run state,
and changes nothing else. -/
def Obligations.TickDecrementsWithFloor : Prop :=
  ∀ s : State, ∃ t, transact .tick s = .next (t, .ok) ∧ t = { s with DT := t.DT, ST := t.ST } ∧
    t.DT.toNat = s.DT.toNat - 1 ∧ t.ST.toNat = s.ST.toNat - 1

/-- SET_KEY latches a key 0..15, clears the latch on none, rejects any other value, and completes no wait by itself
(60_exceptions.md section 4; the key domain is the spec's decision D15). -/
def Obligations.SetKeyWritesTheLatch : Prop :=
  ∀ s : State,
    (∀ k : Fin 16, transact (.setKey (some k.val)) s = .next ({ s with keyValid := true, keyValue := k }, .ok)) ∧
    transact (.setKey none) s = .next ({ s with keyValid := false, keyValue := 0 }, .ok) ∧
    (∀ k, 16 ≤ k → transact (.setKey (some k)) s = .next (s, .rejected))

/-- LOAD copies its bytes into memory, all or nothing, and changes nothing else; an empty load is OK anywhere
(60_exceptions.md section 4; the bound is the spec's decision D23). That memory is again in canonical form is the model's
own clause (log 15). -/
def Obligations.LoadCopiesAllOrNothing : Prop :=
  ∀ (s : State) (addr : Nat) (bs : List Byte), s.mem.wf = true →
    (bs = [] ∨ addr + bs.length ≤ 4096 → ∃ t, transact (.load addr bs) s = .next (t, .ok) ∧
      t = { s with mem := t.mem } ∧ t.mem.wf = true ∧
      (∀ (j : Nat) (h : j < bs.length), t.mem.get (addr + j) = bs[j]) ∧
      ∀ a, a < addr ∨ addr + bs.length ≤ a → t.mem.get a = s.mem.get a) ∧
    (bs ≠ [] → 4096 < addr + bs.length → transact (.load addr bs) s = .next (s, .memoryOutOfBounds))

/-- INSTALL_FONT copies 80 glyph bytes, leaves every other byte, and records font_base, so that glyph k is the five bytes
an Fx29 of k points at; a table of another size or out of range changes nothing (60_exceptions.md section 4; the bounds are the spec's decision D23,
the bytes and address the host's, D34). That memory is again in canonical form is the model's own clause (log 15). -/
def Obligations.InstallFontRecordsBase : Prop :=
  ∀ (s : State) (addr : Nat) (gs : List Byte), s.mem.wf = true →
    (gs.length = 80 → addr ≤ 4016 → ∃ t, transact (.installFont addr gs) s = .next (t, .ok) ∧
      t = { s with mem := t.mem, fontBase := t.fontBase } ∧ t.fontBase.toNat = addr ∧
      t.mem.wf = true ∧ (∀ (j : Nat) (h : j < gs.length), t.mem.get (addr + j) = gs[j]) ∧
      (∀ a, a < addr ∨ addr + 80 ≤ a → t.mem.get a = s.mem.get a) ∧
      ∀ (x : Reg) (g row : Nat) (h : 5 * g + row < gs.length), g < 16 → row < 5 → (s.reg x).toNat = g →
        ∃ u, exec (.ldFX x) t = .next u ∧ u.mem.get (u.base + row) = gs[5 * g + row]) ∧
    (gs.length ≠ 80 ∨ 4016 < addr → transact (.installFont addr gs) s = .next (s, .memoryOutOfBounds))
end

