-- ==== Sys2Proof/Laws/State.lean ====
section
/-! SUPPORT. One lemma per field per named update of State, true by rfl, so that no proof unfolds a record update; then
the reads of a register after a write, and the derived updates written over the named ones. -/

namespace Sys2Proof.Machine.State

variable {cfg : Params}

/-! ### setReg -/

@[simp] theorem setReg_V (s : State cfg) (r : Reg) (v : Byte) : (s.setReg r v).V = s.V.set r.val v r.isLt := rfl
@[simp] theorem setReg_PC (s : State cfg) (r : Reg) (v : Byte) : (s.setReg r v).PC = s.PC := rfl
@[simp] theorem setReg_I (s : State cfg) (r : Reg) (v : Byte) : (s.setReg r v).I = s.I := rfl
@[simp] theorem setReg_stack (s : State cfg) (r : Reg) (v : Byte) : (s.setReg r v).stack = s.stack := rfl
@[simp] theorem setReg_SP (s : State cfg) (r : Reg) (v : Byte) : (s.setReg r v).SP = s.SP := rfl
@[simp] theorem setReg_DT (s : State cfg) (r : Reg) (v : Byte) : (s.setReg r v).DT = s.DT := rfl
@[simp] theorem setReg_ST (s : State cfg) (r : Reg) (v : Byte) : (s.setReg r v).ST = s.ST := rfl
@[simp] theorem setReg_mem (s : State cfg) (r : Reg) (v : Byte) : (s.setReg r v).mem = s.mem := rfl
@[simp] theorem setReg_fb (s : State cfg) (r : Reg) (v : Byte) : (s.setReg r v).fb = s.fb := rfl
@[simp] theorem setReg_keyValid (s : State cfg) (r : Reg) (v : Byte) : (s.setReg r v).keyValid = s.keyValid := rfl
@[simp] theorem setReg_keyValue (s : State cfg) (r : Reg) (v : Byte) : (s.setReg r v).keyValue = s.keyValue := rfl
@[simp] theorem setReg_fontBase (s : State cfg) (r : Reg) (v : Byte) : (s.setReg r v).fontBase = s.fontBase := rfl
@[simp] theorem setReg_runState (s : State cfg) (r : Reg) (v : Byte) : (s.setReg r v).runState = s.runState := rfl
@[simp] theorem setReg_waitX (s : State cfg) (r : Reg) (v : Byte) : (s.setReg r v).waitX = s.waitX := rfl
@[simp] theorem setReg_fault (s : State cfg) (r : Reg) (v : Byte) : (s.setReg r v).fault = s.fault := rfl
@[simp] theorem setReg_draws (s : State cfg) (r : Reg) (v : Byte) : (s.setReg r v).draws = s.draws := rfl

/-! ### loadRegs -/

@[simp] theorem loadRegs_V (s : State cfg) (bs : List Byte) : (s.loadRegs bs).V = fillRegs s.V 0 bs := rfl
@[simp] theorem loadRegs_PC (s : State cfg) (bs : List Byte) : (s.loadRegs bs).PC = s.PC := rfl
@[simp] theorem loadRegs_I (s : State cfg) (bs : List Byte) : (s.loadRegs bs).I = s.I := rfl
@[simp] theorem loadRegs_stack (s : State cfg) (bs : List Byte) : (s.loadRegs bs).stack = s.stack := rfl
@[simp] theorem loadRegs_SP (s : State cfg) (bs : List Byte) : (s.loadRegs bs).SP = s.SP := rfl
@[simp] theorem loadRegs_DT (s : State cfg) (bs : List Byte) : (s.loadRegs bs).DT = s.DT := rfl
@[simp] theorem loadRegs_ST (s : State cfg) (bs : List Byte) : (s.loadRegs bs).ST = s.ST := rfl
@[simp] theorem loadRegs_mem (s : State cfg) (bs : List Byte) : (s.loadRegs bs).mem = s.mem := rfl
@[simp] theorem loadRegs_fb (s : State cfg) (bs : List Byte) : (s.loadRegs bs).fb = s.fb := rfl
@[simp] theorem loadRegs_keyValid (s : State cfg) (bs : List Byte) : (s.loadRegs bs).keyValid = s.keyValid := rfl
@[simp] theorem loadRegs_keyValue (s : State cfg) (bs : List Byte) : (s.loadRegs bs).keyValue = s.keyValue := rfl
@[simp] theorem loadRegs_fontBase (s : State cfg) (bs : List Byte) : (s.loadRegs bs).fontBase = s.fontBase := rfl
@[simp] theorem loadRegs_runState (s : State cfg) (bs : List Byte) : (s.loadRegs bs).runState = s.runState := rfl
@[simp] theorem loadRegs_waitX (s : State cfg) (bs : List Byte) : (s.loadRegs bs).waitX = s.waitX := rfl
@[simp] theorem loadRegs_fault (s : State cfg) (bs : List Byte) : (s.loadRegs bs).fault = s.fault := rfl
@[simp] theorem loadRegs_draws (s : State cfg) (bs : List Byte) : (s.loadRegs bs).draws = s.draws := rfl

/-! ### setPC -/

@[simp] theorem setPC_V (s : State cfg) (a : Word) : (s.setPC a).V = s.V := rfl
@[simp] theorem setPC_PC (s : State cfg) (a : Word) : (s.setPC a).PC = a := rfl
@[simp] theorem setPC_I (s : State cfg) (a : Word) : (s.setPC a).I = s.I := rfl
@[simp] theorem setPC_stack (s : State cfg) (a : Word) : (s.setPC a).stack = s.stack := rfl
@[simp] theorem setPC_SP (s : State cfg) (a : Word) : (s.setPC a).SP = s.SP := rfl
@[simp] theorem setPC_DT (s : State cfg) (a : Word) : (s.setPC a).DT = s.DT := rfl
@[simp] theorem setPC_ST (s : State cfg) (a : Word) : (s.setPC a).ST = s.ST := rfl
@[simp] theorem setPC_mem (s : State cfg) (a : Word) : (s.setPC a).mem = s.mem := rfl
@[simp] theorem setPC_fb (s : State cfg) (a : Word) : (s.setPC a).fb = s.fb := rfl
@[simp] theorem setPC_keyValid (s : State cfg) (a : Word) : (s.setPC a).keyValid = s.keyValid := rfl
@[simp] theorem setPC_keyValue (s : State cfg) (a : Word) : (s.setPC a).keyValue = s.keyValue := rfl
@[simp] theorem setPC_fontBase (s : State cfg) (a : Word) : (s.setPC a).fontBase = s.fontBase := rfl
@[simp] theorem setPC_runState (s : State cfg) (a : Word) : (s.setPC a).runState = s.runState := rfl
@[simp] theorem setPC_waitX (s : State cfg) (a : Word) : (s.setPC a).waitX = s.waitX := rfl
@[simp] theorem setPC_fault (s : State cfg) (a : Word) : (s.setPC a).fault = s.fault := rfl
@[simp] theorem setPC_draws (s : State cfg) (a : Word) : (s.setPC a).draws = s.draws := rfl

/-! ### setI -/

@[simp] theorem setI_V (s : State cfg) (a : Word) : (s.setI a).V = s.V := rfl
@[simp] theorem setI_PC (s : State cfg) (a : Word) : (s.setI a).PC = s.PC := rfl
@[simp] theorem setI_I (s : State cfg) (a : Word) : (s.setI a).I = a := rfl
@[simp] theorem setI_stack (s : State cfg) (a : Word) : (s.setI a).stack = s.stack := rfl
@[simp] theorem setI_SP (s : State cfg) (a : Word) : (s.setI a).SP = s.SP := rfl
@[simp] theorem setI_DT (s : State cfg) (a : Word) : (s.setI a).DT = s.DT := rfl
@[simp] theorem setI_ST (s : State cfg) (a : Word) : (s.setI a).ST = s.ST := rfl
@[simp] theorem setI_mem (s : State cfg) (a : Word) : (s.setI a).mem = s.mem := rfl
@[simp] theorem setI_fb (s : State cfg) (a : Word) : (s.setI a).fb = s.fb := rfl
@[simp] theorem setI_keyValid (s : State cfg) (a : Word) : (s.setI a).keyValid = s.keyValid := rfl
@[simp] theorem setI_keyValue (s : State cfg) (a : Word) : (s.setI a).keyValue = s.keyValue := rfl
@[simp] theorem setI_fontBase (s : State cfg) (a : Word) : (s.setI a).fontBase = s.fontBase := rfl
@[simp] theorem setI_runState (s : State cfg) (a : Word) : (s.setI a).runState = s.runState := rfl
@[simp] theorem setI_waitX (s : State cfg) (a : Word) : (s.setI a).waitX = s.waitX := rfl
@[simp] theorem setI_fault (s : State cfg) (a : Word) : (s.setI a).fault = s.fault := rfl
@[simp] theorem setI_draws (s : State cfg) (a : Word) : (s.setI a).draws = s.draws := rfl

/-! ### setDT -/

@[simp] theorem setDT_V (s : State cfg) (v : Byte) : (s.setDT v).V = s.V := rfl
@[simp] theorem setDT_PC (s : State cfg) (v : Byte) : (s.setDT v).PC = s.PC := rfl
@[simp] theorem setDT_I (s : State cfg) (v : Byte) : (s.setDT v).I = s.I := rfl
@[simp] theorem setDT_stack (s : State cfg) (v : Byte) : (s.setDT v).stack = s.stack := rfl
@[simp] theorem setDT_SP (s : State cfg) (v : Byte) : (s.setDT v).SP = s.SP := rfl
@[simp] theorem setDT_DT (s : State cfg) (v : Byte) : (s.setDT v).DT = v := rfl
@[simp] theorem setDT_ST (s : State cfg) (v : Byte) : (s.setDT v).ST = s.ST := rfl
@[simp] theorem setDT_mem (s : State cfg) (v : Byte) : (s.setDT v).mem = s.mem := rfl
@[simp] theorem setDT_fb (s : State cfg) (v : Byte) : (s.setDT v).fb = s.fb := rfl
@[simp] theorem setDT_keyValid (s : State cfg) (v : Byte) : (s.setDT v).keyValid = s.keyValid := rfl
@[simp] theorem setDT_keyValue (s : State cfg) (v : Byte) : (s.setDT v).keyValue = s.keyValue := rfl
@[simp] theorem setDT_fontBase (s : State cfg) (v : Byte) : (s.setDT v).fontBase = s.fontBase := rfl
@[simp] theorem setDT_runState (s : State cfg) (v : Byte) : (s.setDT v).runState = s.runState := rfl
@[simp] theorem setDT_waitX (s : State cfg) (v : Byte) : (s.setDT v).waitX = s.waitX := rfl
@[simp] theorem setDT_fault (s : State cfg) (v : Byte) : (s.setDT v).fault = s.fault := rfl
@[simp] theorem setDT_draws (s : State cfg) (v : Byte) : (s.setDT v).draws = s.draws := rfl

/-! ### setST -/

@[simp] theorem setST_V (s : State cfg) (v : Byte) : (s.setST v).V = s.V := rfl
@[simp] theorem setST_PC (s : State cfg) (v : Byte) : (s.setST v).PC = s.PC := rfl
@[simp] theorem setST_I (s : State cfg) (v : Byte) : (s.setST v).I = s.I := rfl
@[simp] theorem setST_stack (s : State cfg) (v : Byte) : (s.setST v).stack = s.stack := rfl
@[simp] theorem setST_SP (s : State cfg) (v : Byte) : (s.setST v).SP = s.SP := rfl
@[simp] theorem setST_DT (s : State cfg) (v : Byte) : (s.setST v).DT = s.DT := rfl
@[simp] theorem setST_ST (s : State cfg) (v : Byte) : (s.setST v).ST = v := rfl
@[simp] theorem setST_mem (s : State cfg) (v : Byte) : (s.setST v).mem = s.mem := rfl
@[simp] theorem setST_fb (s : State cfg) (v : Byte) : (s.setST v).fb = s.fb := rfl
@[simp] theorem setST_keyValid (s : State cfg) (v : Byte) : (s.setST v).keyValid = s.keyValid := rfl
@[simp] theorem setST_keyValue (s : State cfg) (v : Byte) : (s.setST v).keyValue = s.keyValue := rfl
@[simp] theorem setST_fontBase (s : State cfg) (v : Byte) : (s.setST v).fontBase = s.fontBase := rfl
@[simp] theorem setST_runState (s : State cfg) (v : Byte) : (s.setST v).runState = s.runState := rfl
@[simp] theorem setST_waitX (s : State cfg) (v : Byte) : (s.setST v).waitX = s.waitX := rfl
@[simp] theorem setST_fault (s : State cfg) (v : Byte) : (s.setST v).fault = s.fault := rfl
@[simp] theorem setST_draws (s : State cfg) (v : Byte) : (s.setST v).draws = s.draws := rfl

/-! ### setMem -/

@[simp] theorem setMem_V (s : State cfg) (m : Memory) : (s.setMem m).V = s.V := rfl
@[simp] theorem setMem_PC (s : State cfg) (m : Memory) : (s.setMem m).PC = s.PC := rfl
@[simp] theorem setMem_I (s : State cfg) (m : Memory) : (s.setMem m).I = s.I := rfl
@[simp] theorem setMem_stack (s : State cfg) (m : Memory) : (s.setMem m).stack = s.stack := rfl
@[simp] theorem setMem_SP (s : State cfg) (m : Memory) : (s.setMem m).SP = s.SP := rfl
@[simp] theorem setMem_DT (s : State cfg) (m : Memory) : (s.setMem m).DT = s.DT := rfl
@[simp] theorem setMem_ST (s : State cfg) (m : Memory) : (s.setMem m).ST = s.ST := rfl
@[simp] theorem setMem_mem (s : State cfg) (m : Memory) : (s.setMem m).mem = m := rfl
@[simp] theorem setMem_fb (s : State cfg) (m : Memory) : (s.setMem m).fb = s.fb := rfl
@[simp] theorem setMem_keyValid (s : State cfg) (m : Memory) : (s.setMem m).keyValid = s.keyValid := rfl
@[simp] theorem setMem_keyValue (s : State cfg) (m : Memory) : (s.setMem m).keyValue = s.keyValue := rfl
@[simp] theorem setMem_fontBase (s : State cfg) (m : Memory) : (s.setMem m).fontBase = s.fontBase := rfl
@[simp] theorem setMem_runState (s : State cfg) (m : Memory) : (s.setMem m).runState = s.runState := rfl
@[simp] theorem setMem_waitX (s : State cfg) (m : Memory) : (s.setMem m).waitX = s.waitX := rfl
@[simp] theorem setMem_fault (s : State cfg) (m : Memory) : (s.setMem m).fault = s.fault := rfl
@[simp] theorem setMem_draws (s : State cfg) (m : Memory) : (s.setMem m).draws = s.draws := rfl

/-! ### setFb -/

@[simp] theorem setFb_V (s : State cfg) (g : Framebuffer cfg) : (s.setFb g).V = s.V := rfl
@[simp] theorem setFb_PC (s : State cfg) (g : Framebuffer cfg) : (s.setFb g).PC = s.PC := rfl
@[simp] theorem setFb_I (s : State cfg) (g : Framebuffer cfg) : (s.setFb g).I = s.I := rfl
@[simp] theorem setFb_stack (s : State cfg) (g : Framebuffer cfg) : (s.setFb g).stack = s.stack := rfl
@[simp] theorem setFb_SP (s : State cfg) (g : Framebuffer cfg) : (s.setFb g).SP = s.SP := rfl
@[simp] theorem setFb_DT (s : State cfg) (g : Framebuffer cfg) : (s.setFb g).DT = s.DT := rfl
@[simp] theorem setFb_ST (s : State cfg) (g : Framebuffer cfg) : (s.setFb g).ST = s.ST := rfl
@[simp] theorem setFb_mem (s : State cfg) (g : Framebuffer cfg) : (s.setFb g).mem = s.mem := rfl
@[simp] theorem setFb_fb (s : State cfg) (g : Framebuffer cfg) : (s.setFb g).fb = g := rfl
@[simp] theorem setFb_keyValid (s : State cfg) (g : Framebuffer cfg) : (s.setFb g).keyValid = s.keyValid := rfl
@[simp] theorem setFb_keyValue (s : State cfg) (g : Framebuffer cfg) : (s.setFb g).keyValue = s.keyValue := rfl
@[simp] theorem setFb_fontBase (s : State cfg) (g : Framebuffer cfg) : (s.setFb g).fontBase = s.fontBase := rfl
@[simp] theorem setFb_runState (s : State cfg) (g : Framebuffer cfg) : (s.setFb g).runState = s.runState := rfl
@[simp] theorem setFb_waitX (s : State cfg) (g : Framebuffer cfg) : (s.setFb g).waitX = s.waitX := rfl
@[simp] theorem setFb_fault (s : State cfg) (g : Framebuffer cfg) : (s.setFb g).fault = s.fault := rfl
@[simp] theorem setFb_draws (s : State cfg) (g : Framebuffer cfg) : (s.setFb g).draws = s.draws := rfl

/-! ### pushed -/

@[simp] theorem pushed_V (s : State cfg) (v : Word) (h : s.SP.val < Config.stackDepth) : (s.pushed v h).V = s.V := rfl
@[simp] theorem pushed_PC (s : State cfg) (v : Word) (h : s.SP.val < Config.stackDepth) : (s.pushed v h).PC = s.PC := rfl
@[simp] theorem pushed_I (s : State cfg) (v : Word) (h : s.SP.val < Config.stackDepth) : (s.pushed v h).I = s.I := rfl
@[simp] theorem pushed_stack (s : State cfg) (v : Word) (h : s.SP.val < Config.stackDepth) : (s.pushed v h).stack = s.stack.set s.SP.val v h := rfl
@[simp] theorem pushed_SP (s : State cfg) (v : Word) (h : s.SP.val < Config.stackDepth) : (s.pushed v h).SP = ⟨s.SP.val + 1, Nat.succ_lt_succ h⟩ := rfl
@[simp] theorem pushed_DT (s : State cfg) (v : Word) (h : s.SP.val < Config.stackDepth) : (s.pushed v h).DT = s.DT := rfl
@[simp] theorem pushed_ST (s : State cfg) (v : Word) (h : s.SP.val < Config.stackDepth) : (s.pushed v h).ST = s.ST := rfl
@[simp] theorem pushed_mem (s : State cfg) (v : Word) (h : s.SP.val < Config.stackDepth) : (s.pushed v h).mem = s.mem := rfl
@[simp] theorem pushed_fb (s : State cfg) (v : Word) (h : s.SP.val < Config.stackDepth) : (s.pushed v h).fb = s.fb := rfl
@[simp] theorem pushed_keyValid (s : State cfg) (v : Word) (h : s.SP.val < Config.stackDepth) : (s.pushed v h).keyValid = s.keyValid := rfl
@[simp] theorem pushed_keyValue (s : State cfg) (v : Word) (h : s.SP.val < Config.stackDepth) : (s.pushed v h).keyValue = s.keyValue := rfl
@[simp] theorem pushed_fontBase (s : State cfg) (v : Word) (h : s.SP.val < Config.stackDepth) : (s.pushed v h).fontBase = s.fontBase := rfl
@[simp] theorem pushed_runState (s : State cfg) (v : Word) (h : s.SP.val < Config.stackDepth) : (s.pushed v h).runState = s.runState := rfl
@[simp] theorem pushed_waitX (s : State cfg) (v : Word) (h : s.SP.val < Config.stackDepth) : (s.pushed v h).waitX = s.waitX := rfl
@[simp] theorem pushed_fault (s : State cfg) (v : Word) (h : s.SP.val < Config.stackDepth) : (s.pushed v h).fault = s.fault := rfl
@[simp] theorem pushed_draws (s : State cfg) (v : Word) (h : s.SP.val < Config.stackDepth) : (s.pushed v h).draws = s.draws := rfl

/-! ### popped -/

@[simp] theorem popped_V (s : State cfg) : (s.popped).V = s.V := rfl
@[simp] theorem popped_PC (s : State cfg) : (s.popped).PC = s.PC := rfl
@[simp] theorem popped_I (s : State cfg) : (s.popped).I = s.I := rfl
@[simp] theorem popped_stack (s : State cfg) : (s.popped).stack = s.stack := rfl
@[simp] theorem popped_SP (s : State cfg) : (s.popped).SP = ⟨s.SP.val - 1, Nat.lt_of_le_of_lt (Nat.sub_le _ _) s.SP.isLt⟩ := rfl
@[simp] theorem popped_DT (s : State cfg) : (s.popped).DT = s.DT := rfl
@[simp] theorem popped_ST (s : State cfg) : (s.popped).ST = s.ST := rfl
@[simp] theorem popped_mem (s : State cfg) : (s.popped).mem = s.mem := rfl
@[simp] theorem popped_fb (s : State cfg) : (s.popped).fb = s.fb := rfl
@[simp] theorem popped_keyValid (s : State cfg) : (s.popped).keyValid = s.keyValid := rfl
@[simp] theorem popped_keyValue (s : State cfg) : (s.popped).keyValue = s.keyValue := rfl
@[simp] theorem popped_fontBase (s : State cfg) : (s.popped).fontBase = s.fontBase := rfl
@[simp] theorem popped_runState (s : State cfg) : (s.popped).runState = s.runState := rfl
@[simp] theorem popped_waitX (s : State cfg) : (s.popped).waitX = s.waitX := rfl
@[simp] theorem popped_fault (s : State cfg) : (s.popped).fault = s.fault := rfl
@[simp] theorem popped_draws (s : State cfg) : (s.popped).draws = s.draws := rfl

/-! ### drawn -/

@[simp] theorem drawn_V (s : State cfg) : (s.drawn).V = s.V := rfl
@[simp] theorem drawn_PC (s : State cfg) : (s.drawn).PC = s.PC := rfl
@[simp] theorem drawn_I (s : State cfg) : (s.drawn).I = s.I := rfl
@[simp] theorem drawn_stack (s : State cfg) : (s.drawn).stack = s.stack := rfl
@[simp] theorem drawn_SP (s : State cfg) : (s.drawn).SP = s.SP := rfl
@[simp] theorem drawn_DT (s : State cfg) : (s.drawn).DT = s.DT := rfl
@[simp] theorem drawn_ST (s : State cfg) : (s.drawn).ST = s.ST := rfl
@[simp] theorem drawn_mem (s : State cfg) : (s.drawn).mem = s.mem := rfl
@[simp] theorem drawn_fb (s : State cfg) : (s.drawn).fb = s.fb := rfl
@[simp] theorem drawn_keyValid (s : State cfg) : (s.drawn).keyValid = s.keyValid := rfl
@[simp] theorem drawn_keyValue (s : State cfg) : (s.drawn).keyValue = s.keyValue := rfl
@[simp] theorem drawn_fontBase (s : State cfg) : (s.drawn).fontBase = s.fontBase := rfl
@[simp] theorem drawn_runState (s : State cfg) : (s.drawn).runState = s.runState := rfl
@[simp] theorem drawn_waitX (s : State cfg) : (s.drawn).waitX = s.waitX := rfl
@[simp] theorem drawn_fault (s : State cfg) : (s.drawn).fault = s.fault := rfl
@[simp] theorem drawn_draws (s : State cfg) : (s.drawn).draws = s.draws + 1 := rfl

/-! ### beginWait -/

@[simp] theorem beginWait_V (s : State cfg) (x : Reg) : (s.beginWait x).V = s.V := rfl
@[simp] theorem beginWait_PC (s : State cfg) (x : Reg) : (s.beginWait x).PC = s.PC := rfl
@[simp] theorem beginWait_I (s : State cfg) (x : Reg) : (s.beginWait x).I = s.I := rfl
@[simp] theorem beginWait_stack (s : State cfg) (x : Reg) : (s.beginWait x).stack = s.stack := rfl
@[simp] theorem beginWait_SP (s : State cfg) (x : Reg) : (s.beginWait x).SP = s.SP := rfl
@[simp] theorem beginWait_DT (s : State cfg) (x : Reg) : (s.beginWait x).DT = s.DT := rfl
@[simp] theorem beginWait_ST (s : State cfg) (x : Reg) : (s.beginWait x).ST = s.ST := rfl
@[simp] theorem beginWait_mem (s : State cfg) (x : Reg) : (s.beginWait x).mem = s.mem := rfl
@[simp] theorem beginWait_fb (s : State cfg) (x : Reg) : (s.beginWait x).fb = s.fb := rfl
@[simp] theorem beginWait_keyValid (s : State cfg) (x : Reg) : (s.beginWait x).keyValid = s.keyValid := rfl
@[simp] theorem beginWait_keyValue (s : State cfg) (x : Reg) : (s.beginWait x).keyValue = s.keyValue := rfl
@[simp] theorem beginWait_fontBase (s : State cfg) (x : Reg) : (s.beginWait x).fontBase = s.fontBase := rfl
@[simp] theorem beginWait_runState (s : State cfg) (x : Reg) : (s.beginWait x).runState = .awaitKey := rfl
@[simp] theorem beginWait_waitX (s : State cfg) (x : Reg) : (s.beginWait x).waitX = x := rfl
@[simp] theorem beginWait_fault (s : State cfg) (x : Reg) : (s.beginWait x).fault = s.fault := rfl
@[simp] theorem beginWait_draws (s : State cfg) (x : Reg) : (s.beginWait x).draws = s.draws := rfl

/-! ### endWait -/

@[simp] theorem endWait_V (s : State cfg) : (s.endWait).V = s.V := rfl
@[simp] theorem endWait_PC (s : State cfg) : (s.endWait).PC = s.PC := rfl
@[simp] theorem endWait_I (s : State cfg) : (s.endWait).I = s.I := rfl
@[simp] theorem endWait_stack (s : State cfg) : (s.endWait).stack = s.stack := rfl
@[simp] theorem endWait_SP (s : State cfg) : (s.endWait).SP = s.SP := rfl
@[simp] theorem endWait_DT (s : State cfg) : (s.endWait).DT = s.DT := rfl
@[simp] theorem endWait_ST (s : State cfg) : (s.endWait).ST = s.ST := rfl
@[simp] theorem endWait_mem (s : State cfg) : (s.endWait).mem = s.mem := rfl
@[simp] theorem endWait_fb (s : State cfg) : (s.endWait).fb = s.fb := rfl
@[simp] theorem endWait_keyValid (s : State cfg) : (s.endWait).keyValid = s.keyValid := rfl
@[simp] theorem endWait_keyValue (s : State cfg) : (s.endWait).keyValue = s.keyValue := rfl
@[simp] theorem endWait_fontBase (s : State cfg) : (s.endWait).fontBase = s.fontBase := rfl
@[simp] theorem endWait_runState (s : State cfg) : (s.endWait).runState = .running := rfl
@[simp] theorem endWait_waitX (s : State cfg) : (s.endWait).waitX = s.waitX := rfl
@[simp] theorem endWait_fault (s : State cfg) : (s.endWait).fault = s.fault := rfl
@[simp] theorem endWait_draws (s : State cfg) : (s.endWait).draws = s.draws := rfl

/-! ### takeError -/

@[simp] theorem takeError_V (s : State cfg) (w : Word) (e : Raised) : (s.takeError w e).V = s.V := rfl
@[simp] theorem takeError_PC (s : State cfg) (w : Word) (e : Raised) : (s.takeError w e).PC = s.PC := rfl
@[simp] theorem takeError_I (s : State cfg) (w : Word) (e : Raised) : (s.takeError w e).I = s.I := rfl
@[simp] theorem takeError_stack (s : State cfg) (w : Word) (e : Raised) : (s.takeError w e).stack = s.stack := rfl
@[simp] theorem takeError_SP (s : State cfg) (w : Word) (e : Raised) : (s.takeError w e).SP = s.SP := rfl
@[simp] theorem takeError_DT (s : State cfg) (w : Word) (e : Raised) : (s.takeError w e).DT = s.DT := rfl
@[simp] theorem takeError_ST (s : State cfg) (w : Word) (e : Raised) : (s.takeError w e).ST = s.ST := rfl
@[simp] theorem takeError_mem (s : State cfg) (w : Word) (e : Raised) : (s.takeError w e).mem = s.mem := rfl
@[simp] theorem takeError_fb (s : State cfg) (w : Word) (e : Raised) : (s.takeError w e).fb = s.fb := rfl
@[simp] theorem takeError_keyValid (s : State cfg) (w : Word) (e : Raised) : (s.takeError w e).keyValid = s.keyValid := rfl
@[simp] theorem takeError_keyValue (s : State cfg) (w : Word) (e : Raised) : (s.takeError w e).keyValue = s.keyValue := rfl
@[simp] theorem takeError_fontBase (s : State cfg) (w : Word) (e : Raised) : (s.takeError w e).fontBase = s.fontBase := rfl
@[simp] theorem takeError_runState (s : State cfg) (w : Word) (e : Raised) : (s.takeError w e).runState = .faulted := rfl
@[simp] theorem takeError_waitX (s : State cfg) (w : Word) (e : Raised) : (s.takeError w e).waitX = s.waitX := rfl
@[simp] theorem takeError_fault (s : State cfg) (w : Word) (e : Raised) : (s.takeError w e).fault = ⟨e.kind, s.PC, w, e.addr⟩ := rfl
@[simp] theorem takeError_draws (s : State cfg) (w : Word) (e : Raised) : (s.takeError w e).draws = s.draws := rfl

/-! ### resetAt -/

@[simp] theorem resetAt_V : (resetAt cfg).V = Vector.replicate 16 0#8 := rfl
@[simp] theorem resetAt_PC : (resetAt cfg).PC = cfg.loadAddr := rfl
@[simp] theorem resetAt_I : (resetAt cfg).I = 0#16 := rfl
@[simp] theorem resetAt_stack : (resetAt cfg).stack = Vector.replicate Config.stackDepth 0#16 := rfl
@[simp] theorem resetAt_SP : (resetAt cfg).SP = 0 := rfl
@[simp] theorem resetAt_DT : (resetAt cfg).DT = 0#8 := rfl
@[simp] theorem resetAt_ST : (resetAt cfg).ST = 0#8 := rfl
@[simp] theorem resetAt_mem : (resetAt cfg).mem = [] := rfl
@[simp] theorem resetAt_fb : (resetAt cfg).fb = Vector.replicate cfg.displayH (Vector.replicate cfg.displayW false) := rfl
@[simp] theorem resetAt_keyValid : (resetAt cfg).keyValid = false := rfl
@[simp] theorem resetAt_keyValue : (resetAt cfg).keyValue = 0 := rfl
@[simp] theorem resetAt_fontBase : (resetAt cfg).fontBase = 0#16 := rfl
@[simp] theorem resetAt_runState : (resetAt cfg).runState = .running := rfl
@[simp] theorem resetAt_waitX : (resetAt cfg).waitX = 0 := rfl
@[simp] theorem resetAt_fault : (resetAt cfg).fault = FaultRecord.clear := rfl
@[simp] theorem resetAt_draws : (resetAt cfg).draws = 0 := rfl

/-- The reset state is the one at the decided parameters. -/
theorem reset_eq : reset = resetAt Config.params := rfl

/-! ### Registers after a write -/

@[simp] theorem reg_setReg_same (s : State cfg) (r : Reg) (v : Byte) : (s.setReg r v).reg r = v := by
  simp [State.reg]

theorem reg_setReg_other (s : State cfg) (r q : Reg) (v : Byte) (h : q ≠ r) : (s.setReg r v).reg q = s.reg q := by
  simp [State.reg, Fin.val_inj, Ne.symm h]

theorem reg_setReg (s : State cfg) (r q : Reg) (v : Byte) :
    (s.setReg r v).reg q = if q = r then v else s.reg q := by
  split
  · subst_vars; exact reg_setReg_same ..
  · exact reg_setReg_other _ _ _ _ ‹_›

@[simp] theorem reg_resetAt (r : Reg) : (resetAt cfg).reg r = 0#8 := by
  simp [State.reg]

theorem reg_setFlag_other (s : State cfg) (c : Bool) (q : Reg) (h : q ≠ 15) : (s.setFlag c).reg q = s.reg q :=
  reg_setReg_other s vF q _ h

@[simp] theorem reg_setPC (s : State cfg) (a : Word) (r : Reg) : (s.setPC a).reg r = s.reg r := rfl
@[simp] theorem reg_setI (s : State cfg) (a : Word) (r : Reg) : (s.setI a).reg r = s.reg r := rfl
@[simp] theorem reg_setDT (s : State cfg) (v : Byte) (r : Reg) : (s.setDT v).reg r = s.reg r := rfl
@[simp] theorem reg_setST (s : State cfg) (v : Byte) (r : Reg) : (s.setST v).reg r = s.reg r := rfl
@[simp] theorem reg_setMem (s : State cfg) (m : Memory) (r : Reg) : (s.setMem m).reg r = s.reg r := rfl
@[simp] theorem reg_setFb (s : State cfg) (g : Framebuffer cfg) (r : Reg) : (s.setFb g).reg r = s.reg r := rfl
@[simp] theorem reg_drawn (s : State cfg) (r : Reg) : s.drawn.reg r = s.reg r := rfl
@[simp] theorem reg_beginWait (s : State cfg) (x r : Reg) : (s.beginWait x).reg r = s.reg r := rfl
@[simp] theorem reg_takeError (s : State cfg) (w : Word) (e : Raised) (r : Reg) : (s.takeError w e).reg r = s.reg r := rfl

/-! ### Derived updates -/

@[simp] theorem advancePC_eq (s : State cfg) : s.advancePC = s.setPC (incPC s.PC) := rfl

@[simp] theorem setFlag_eq (s : State cfg) (c : Bool) : s.setFlag c = s.setReg vF (flagByte c) := rfl

/-- A skip is a write of PC, to itself when it is not taken. -/
@[simp] theorem skipIf_eq (s : State cfg) (c : Bool) : s.skipIf c = s.setPC (if c then incPC s.PC else s.PC) := by
  cases c <;> rfl

end Sys2Proof.Machine.State
end

