-- ==== Sys2Proof/Laws/Display.lean ====
section
/-! SUPPORT. The laws of the pixel grid: what one pixel reads after another is flipped, of the blank grid,
and of a whole sprite drawn. -/

namespace Sys2Proof.Machine.Grid

theorem pixel_toggle_same {w h : Nat} (g : Grid w h) (r : Fin h) (c : Fin w) :
    (g.toggle r c).pixel r c = !g.pixel r c := by
  simp [pixel, toggle]

theorem pixel_toggle_other {w h : Nat} (g : Grid w h) (r r' : Fin h) (c c' : Fin w) (hn : ¬ (r' = r ∧ c' = c)) :
    (g.toggle r c).pixel r' c' = g.pixel r' c' := by
  by_cases hr : r' = r
  · subst hr
    have hc : c.val ≠ c'.val := fun h => hn ⟨rfl, (Fin.ext h).symm⟩
    simp [pixel, toggle, hc]
  · have hr' : r.val ≠ r'.val := fun h => hr (Fin.ext h).symm
    simp [pixel, toggle, hr']

@[simp] theorem pixel_blank {w h : Nat} (r : Fin h) (c : Fin w) : (blank w h).pixel r c = false := by
  simp [pixel, blank]

/-- Grids that read alike at every pixel are equal. -/
theorem ext_pixel {w h : Nat} {g g' : Grid w h} (heq : ∀ r c, g.pixel r c = g'.pixel r c) : g = g' := by
  apply Vector.ext
  intro r hr
  apply Vector.ext
  intro c hc
  exact heq ⟨r, hr⟩ ⟨c, hc⟩

end Sys2Proof.Machine.Grid

namespace Sys2Proof.Machine

/-- Flipping a list of distinct pixels: each of them is flipped and no other, and the collision flag says whether one of
them was on. -/
theorem foldl_xorPixel {w h : Nat} (ps : List (Fin h × Fin w)) (g : Grid w h) (b : Bool) (hn : ps.Nodup) :
    (∀ r c, (ps.foldl xorPixel (g, b)).1.pixel r c = (g.pixel r c != decide ((r, c) ∈ ps))) ∧
    (ps.foldl xorPixel (g, b)).2 = (b || decide (∃ p ∈ ps, g.pixel p.1 p.2 = true)) := by
  induction ps generalizing g b with
  | nil => simp
  | cons p ps ih =>
    obtain ⟨hp, hn⟩ := List.nodup_cons.1 hn
    obtain ⟨i1, i2⟩ := ih (g.toggle p.1 p.2) (b || g.pixel p.1 p.2) hn
    refine ⟨fun r c => ?_, ?_⟩
    · show ((ps.foldl xorPixel (g.toggle p.1 p.2, b || g.pixel p.1 p.2)).1).pixel r c = _
      rw [i1]
      by_cases hrc : (r, c) = p
      · subst hrc
        rw [Grid.pixel_toggle_same]
        simp [hp]
      · rw [Grid.pixel_toggle_other _ _ _ _ _ fun hh => hrc (Prod.ext hh.1 hh.2)]
        simp [hrc]
    · show (ps.foldl xorPixel (g.toggle p.1 p.2, b || g.pixel p.1 p.2)).2 = _
      rw [i2, Bool.or_assoc]
      congr 1
      rw [Bool.eq_iff_iff]
      simp only [Bool.or_eq_true, decide_eq_true_eq, List.mem_cons, exists_eq_or_imp]
      refine or_congr_right (exists_congr fun q => and_congr_right fun hq => ?_)
      rw [Grid.pixel_toggle_other _ _ _ _ _ fun hh => hp ((Prod.ext hh.1 hh.2 : q = p) ▸ hq)]

/-- The pixels of one sprite row. -/
theorem mem_rowPixels {w h : Nat} (hw : 0 < w) (hh : 0 < h) (cx py : Nat) (row : Byte) (r : Fin h) (c : Fin w) :
    (r, c) ∈ rowPixels hw hh cx py row ↔
      r.val = py % h ∧ ∃ b, b < 8 ∧ c.val = (cx + b) % w ∧ row.getLsbD (7 - b) = true := by
  simp only [rowPixels, List.mem_map, List.mem_filter, List.mem_range, Prod.mk.injEq]
  constructor
  · rintro ⟨b, ⟨h1, h2⟩, rfl, rfl⟩
    exact ⟨rfl, b, h1, rfl, h2⟩
  · rintro ⟨h1, b, h2, h3, h4⟩
    exact ⟨b, ⟨h2, h4⟩, Fin.ext h1.symm, Fin.ext h3.symm⟩

/-- The pixels of a sprite: a 1 bit of row j lands on row py + j and its own column, both wrapped. -/
theorem mem_spritePixels {w h : Nat} (hw : 0 < w) (hh : 0 < h) (cx py : Nat) (rows : List Byte) (r : Fin h) (c : Fin w) :
    (r, c) ∈ spritePixels hw hh cx py rows ↔ ∃ (j : Nat) (_ : j < rows.length), r.val = (py + j) % h ∧
      ∃ b, b < 8 ∧ c.val = (cx + b) % w ∧ rows[j].getLsbD (7 - b) = true := by
  induction rows generalizing py with
  | nil => simp [spritePixels]
  | cons row rows ih =>
    simp only [spritePixels, List.mem_append, mem_rowPixels, ih]
    constructor
    · rintro (⟨h1, h2⟩ | ⟨j, hj, h1, h2⟩)
      · exact ⟨0, by simp, h1, h2⟩
      · exact ⟨j + 1, by simpa using hj, by rw [h1]; congr 1; omega, h2⟩
    · rintro ⟨j, hj, h1, h2⟩
      cases j with
      | zero => exact .inl ⟨h1, h2⟩
      | succ j => exact .inr ⟨j, by simpa using hj, by rw [h1]; congr 1; omega, h2⟩

/-- Two numbers less than `h` apart with one remainder are one number. -/
theorem eq_of_mod_eq {a b h : Nat} (hab : (a + b) % h = a % h) (hb : b < h) : b = 0 := by
  have := (Nat.ModEq.add_left_cancel' a (show a + b ≡ a + 0 [MOD h] from hab))
  rwa [Nat.ModEq, Nat.mod_eq_of_lt hb, Nat.zero_mod] at this

/-- On a display at least 8 pixels wide and as high as the sprite, no pixel is asked for twice. -/
theorem nodup_spritePixels {w h : Nat} (hw : 0 < w) (hh : 0 < h) (cx py : Nat) (rows : List Byte) (h8 : 8 ≤ w)
    (hl : rows.length ≤ h) : (spritePixels hw hh cx py rows).Nodup := by
  induction rows generalizing py with
  | nil => simp [spritePixels]
  | cons row rows ih =>
    simp only [List.length_cons] at hl
    refine List.Nodup.append (List.Nodup.map_on ?_ (List.Nodup.filter _ List.nodup_range)) (ih _ (by omega)) ?_
    · intro a ha b hb he
      simp only [List.mem_filter, List.mem_range, Prod.mk.injEq] at *
      have he : (cx + a) % w = (cx + b) % w := congrArg Fin.val he.2
      rcases Nat.le_total a b with hl | hl
      · have := eq_of_mod_eq (a := cx + a) (b := b - a) (by rw [show cx + a + (b - a) = cx + b by omega, he]) (by omega)
        omega
      · have := eq_of_mod_eq (a := cx + b) (b := a - b) (by rw [show cx + b + (a - b) = cx + a by omega, he]) (by omega)
        omega
    · rintro ⟨r, c⟩ h1 h2
      obtain ⟨h1, _⟩ := (mem_rowPixels ..).1 h1
      obtain ⟨j, hj, h2, _⟩ := (mem_spritePixels ..).1 h2
      have := eq_of_mod_eq (a := py) (b := 1 + j) (by rw [← h1, h2]; congr 1; omega) (by omega)
      omega

/-- Everything a draw can do: which pixels it flips, and when it reports a collision. -/
theorem drawSprite_spec {w h : Nat} (hw : 0 < w) (hh : 0 < h) (g : Grid w h) (cx cy : Nat) (rows : List Byte) (h8 : 8 ≤ w)
    (hl : rows.length ≤ h) :
    (∀ r c, (drawSprite hw hh g cx cy rows).1.pixel r c = (g.pixel r c != decide ((r, c) ∈ spritePixels hw hh cx cy rows))) ∧
    (drawSprite hw hh g cx cy rows).2 = decide (∃ p ∈ spritePixels hw hh cx cy rows, g.pixel p.1 p.2 = true) := by
  have := foldl_xorPixel _ g false (nodup_spritePixels hw hh cx cy rows h8 hl)
  rwa [Bool.false_or] at this

end Sys2Proof.Machine
end

