-- ==== Sys2Proof/Laws/Memory.lean ====
section
/-! SUPPORT. The laws of memory: read after write, the canonical form, and that equal readings are equal memories. -/

namespace Sys2Proof.Machine.Memory

@[simp] theorem get_nil (a : Nat) : Memory.get [] a = unlistedByte := rfl

/-- An address below every listed one is unlisted. -/
theorem get_below {m : Memory} {a : Nat} (h : ∀ c ∈ m, a < c.1) : m.get a = unlistedByte := by
  induction m with
  | nil => rfl
  | cons c m ih =>
    obtain ⟨k, v⟩ := c
    have hk : a < k := h (k, v) (by simp)
    simp only [Memory.get, Nat.ne_of_lt hk, if_false]
    exact ih fun c hc => h c (by simp [hc])

/-- What the canonical form says of a nonempty memory. -/
theorem wf_cons {k : Nat} {v : Byte} {m : Memory} :
    Memory.wf ((k, v) :: m) = true ↔
      k < Config.memSize ∧ v ≠ unlistedByte ∧ (∀ c ∈ m, k < c.1) ∧ m.wf = true := by
  simp [Memory.wf, List.all_eq_true, and_assoc]

theorem get_set_same {m : Memory} (a : Nat) (v : Byte) (h : m.wf = true) : (m.set a v).get a = v := by
  induction m with
  | nil => by_cases hv : v = unlistedByte <;> simp [Memory.set, Memory.get, hv]
  | cons c m ih =>
    obtain ⟨k, w⟩ := c
    obtain ⟨_, _, hlt, hm⟩ := wf_cons.1 h
    simp only [Memory.set]
    split
    · rename_i hak
      split
      · rename_i hv
        rw [hv]
        exact get_below fun c hc => by
          rcases List.mem_cons.1 hc with rfl | hc
          · exact hak
          · exact Nat.lt_trans hak (hlt c hc)
      · simp [Memory.get]
    · split
      · rename_i hak
        subst hak
        split
        · rename_i hv
          rw [hv]; exact get_below hlt
        · simp [Memory.get]
      · rename_i hak
        simp only [Memory.get, hak, if_false]
        exact ih hm

theorem get_set_other {m : Memory} (a b : Nat) (v : Byte) (h : b ≠ a) : (m.set a v).get b = m.get b := by
  induction m with
  | nil => by_cases hv : v = unlistedByte <;> simp [Memory.set, Memory.get, hv, h]
  | cons c m ih =>
    obtain ⟨k, w⟩ := c
    simp only [Memory.set]
    split
    · split <;> simp [Memory.get, h]
    · split
      · rename_i hak
        subst hak
        split <;> simp [Memory.get, h]
      · simp only [Memory.get, ih]

/-- One byte read after one byte written. -/
theorem get_set {m : Memory} (a b : Nat) (v : Byte) (h : m.wf = true) :
    (m.set a v).get b = if b = a then v else m.get b := by
  split
  · subst_vars; exact get_set_same _ _ h
  · exact get_set_other _ _ _ ‹_›

theorem mem_set {m : Memory} {a : Nat} {v : Byte} {c : Host.Cell} (h : c ∈ m.set a v) : c.1 = a ∨ c ∈ m := by
  induction m with
  | nil =>
    by_cases hv : v = unlistedByte <;> simp [Memory.set, hv] at h
    exact .inl (by rw [h])
  | cons d m ih =>
    obtain ⟨k, w⟩ := d
    simp only [Memory.set] at h
    split at h
    · split at h
      · exact .inr h
      · rcases List.mem_cons.1 h with rfl | h
        · exact .inl rfl
        · exact .inr h
    · split at h
      · split at h
        · exact .inr (by simp [h])
        · rcases List.mem_cons.1 h with rfl | h
          · exact .inl rfl
          · exact .inr (by simp [h])
      · rcases List.mem_cons.1 h with rfl | h
        · exact .inr (by simp)
        · exact (ih h).imp id fun h => by simp [h]

/-- A write below `MEM_SIZE` keeps the canonical form. -/
theorem wf_set {m : Memory} {a : Nat} (v : Byte) (h : m.wf = true) (ha : a < Config.memSize) :
    (m.set a v).wf = true := by
  induction m with
  | nil => by_cases hv : v = unlistedByte <;> simp [Memory.set, Memory.wf, hv, ha]
  | cons c m ih =>
    obtain ⟨k, w⟩ := c
    obtain ⟨hk, hw, hlt, hm⟩ := wf_cons.1 h
    simp only [Memory.set]
    split
    · rename_i hak
      split
      · exact h
      · refine wf_cons.2 ⟨ha, ‹_›, fun c hc => ?_, h⟩
        rcases List.mem_cons.1 hc with rfl | hc
        · exact hak
        · exact Nat.lt_trans hak (hlt c hc)
    · split
      · rename_i hak
        subst hak
        split
        · exact hm
        · exact wf_cons.2 ⟨ha, ‹_›, hlt, hm⟩
      · refine wf_cons.2 ⟨hk, hw, fun c hc => ?_, ih hm⟩
        rcases mem_set hc with hc | hc
        · omega
        · exact hlt c hc

theorem setMany_cons (m : Memory) (a : Nat) (b : Byte) (bs : List Byte) :
    m.setMany a (b :: bs) = (m.set a b).setMany (a + 1) bs := rfl

@[simp] theorem setMany_nil (m : Memory) (a : Nat) : m.setMany a [] = m := rfl

/-- A write of a whole range inside memory keeps the canonical form. -/
theorem wf_setMany {m : Memory} {a : Nat} (bs : List Byte) (h : m.wf = true) (ha : a + bs.length ≤ Config.memSize) :
    (m.setMany a bs).wf = true := by
  induction bs generalizing m a with
  | nil => exact h
  | cons b bs ih =>
    simp only [List.length_cons] at ha
    exact ih (wf_set b h (by omega)) (by omega)

/-- A byte outside the written range keeps its value. -/
theorem get_setMany_outside (m : Memory) (a b : Nat) (bs : List Byte) (h : b < a ∨ a + bs.length ≤ b) :
    (m.setMany a bs).get b = m.get b := by
  induction bs generalizing m a with
  | nil => rfl
  | cons c bs ih =>
    simp only [List.length_cons] at h
    rw [setMany_cons, ih _ _ (by omega), get_set_other _ _ _ (by omega)]

/-- A byte inside the written range is the byte written there. -/
theorem get_setMany_inside {m : Memory} {a j : Nat} (bs : List Byte) (h : m.wf = true)
    (ha : a + bs.length ≤ Config.memSize) (hj : j < bs.length) : (m.setMany a bs).get (a + j) = bs[j] := by
  induction bs generalizing m a j with
  | nil => exact absurd hj (Nat.not_lt_zero _)
  | cons c bs ih =>
    simp only [List.length_cons] at ha hj
    have hw := wf_set (a := a) c h (by omega)
    rw [setMany_cons]
    cases j with
    | zero => rw [get_setMany_outside _ _ _ _ (by omega), Nat.add_zero, get_set_same _ _ h]; rfl
    | succ j =>
      have := ih (a := a + 1) (j := j) hw (by omega) (by omega)
      rw [show a + (j + 1) = a + 1 + j by omega, this]; rfl

@[simp] theorem length_getMany (m : Memory) (a k : Nat) : (m.getMany a k).length = k := by simp [Memory.getMany]

@[simp] theorem getElem_getMany (m : Memory) (a k j : Nat) (h : j < (m.getMany a k).length) :
    (m.getMany a k)[j] = m.get (a + j) := by simp [Memory.getMany]

/-- Nothing at or above `MEM_SIZE` is listed. -/
theorem get_above {m : Memory} {a : Nat} (h : m.wf = true) (ha : Config.memSize ≤ a) : m.get a = unlistedByte := by
  induction m with
  | nil => rfl
  | cons c m ih =>
    obtain ⟨k, w⟩ := c
    obtain ⟨hk, _, _, hm⟩ := wf_cons.1 h
    simp only [Memory.get, show a ≠ k by omega, if_false]
    exact ih hm

/-- Memories in canonical form that read alike everywhere are equal data. -/
theorem ext_get {m n : Memory} (hm : m.wf = true) (hn : n.wf = true) (h : ∀ a, m.get a = n.get a) : m = n := by
  induction m generalizing n with
  | nil =>
    cases n with
    | nil => rfl
    | cons c n =>
      obtain ⟨k, w⟩ := c
      have := h k
      simp only [Memory.get, if_true] at this
      exact absurd this.symm (wf_cons.1 hn).2.1
  | cons c m ih =>
    obtain ⟨k, w⟩ := c
    obtain ⟨_, hw, hlt, hm'⟩ := wf_cons.1 hm
    cases n with
    | nil =>
      have := h k
      simp only [Memory.get, if_true] at this
      exact absurd this hw
    | cons d n =>
      obtain ⟨l, u⟩ := d
      obtain ⟨_, hu, hlt', hn'⟩ := wf_cons.1 hn
      have hkl : k = l := by
        rcases Nat.lt_trichotomy k l with hkl | hkl | hkl
        · have := h k
          rw [Memory.get, if_pos rfl, get_below (m := (l, u) :: n)] at this
          · exact absurd this hw
          · intro c hc
            rcases List.mem_cons.1 hc with rfl | hc
            · exact hkl
            · exact Nat.lt_trans hkl (hlt' c hc)
        · exact hkl
        · have := h l
          rw [Memory.get.eq_def ((l, u) :: n), get_below (m := (k, w) :: m)] at this
          · simp only [if_true] at this
            exact absurd this.symm hu
          · intro c hc
            rcases List.mem_cons.1 hc with rfl | hc
            · exact hkl
            · exact Nat.lt_trans hkl (hlt c hc)
      subst hkl
      have hwu : w = u := by simpa [Memory.get] using h k
      subst hwu
      congr 1
      refine ih hm' hn' fun a => ?_
      by_cases ha : a = k
      · subst ha; rw [get_below hlt, get_below hlt']
      · simpa [Memory.get, ha] using h a

end Sys2Proof.Machine.Memory
end

