-- ==== Sys2Proof/Laws/Ops.lean ====
section
/-! SUPPORT. One lemma per shared operation that says everything it can do: ranges, the stack controller, running an
instruction, fetching, and placing an instruction word. -/

namespace Sys2Proof.Machine

variable {cfg : Params}

/-! ### Ranges (20_memory.md rule R53) -/

theorem rangeRefused_iff (a k : Nat) : rangeRefused a k = true ↔ 0 < k ∧ Config.memSize < a + k := by
  simp [rangeRefused, inRange]

theorem readRange_cases (m : Memory) (a k : Nat) :
    (0 < k ∧ Config.memSize < a + k ∧ readRange m a k = .error (oobError (firstOOB a))) ∨
    ((k = 0 ∨ a + k ≤ Config.memSize) ∧ readRange m a k = .ok (m.getMany a k)) := by
  by_cases h : rangeRefused a k = true
  · have := (rangeRefused_iff a k).1 h
    exact .inl ⟨this.1, this.2, by simp [readRange, h]⟩
  · have hn := mt (rangeRefused_iff a k).2 h
    exact .inr ⟨by omega, by simp [readRange, h]⟩

theorem writeRange_cases (m : Memory) (a : Nat) (bs : List Byte) :
    (0 < bs.length ∧ Config.memSize < a + bs.length ∧ writeRange m a bs = .error (oobError (firstOOB a))) ∨
    ((bs.length = 0 ∨ a + bs.length ≤ Config.memSize) ∧ writeRange m a bs = .ok (m.setMany a bs)) := by
  by_cases h : rangeRefused a bs.length = true
  · have := (rangeRefused_iff a _).1 h
    exact .inl ⟨this.1, this.2, by simp [writeRange, h]⟩
  · have hn := mt (rangeRefused_iff a bs.length).2 h
    exact .inr ⟨by omega, by simp [writeRange, h]⟩

@[simp] theorem length_bcdDigits (v : Byte) : (bcdDigits v).length = 3 := rfl

@[simp] theorem length_regsUpTo (s : State cfg) (x : Reg) : (s.regsUpTo x).length = x.val + 1 := by
  have := x.isLt
  simp [State.regsUpTo]

theorem getElem_regsUpTo (s : State cfg) (x : Reg) (j : Nat) (h : j < (s.regsUpTo x).length) :
    (s.regsUpTo x)[j] = s.reg ⟨j, by have := x.isLt; simp at h; omega⟩ := by
  simp [State.regsUpTo, State.reg]

/-! ### The stack controller (10_state.md rule R28) -/

theorem push_cases (v : Word) (s : State cfg) :
    (s.SP.val = Config.stackDepth ∧ push v s = .error ⟨.stackOverflow, 0#16⟩) ∨
    (∃ h : s.SP.val < Config.stackDepth, push v s = .ok (s.pushed v h)) := by
  by_cases h : s.SP.val < Config.stackDepth
  · exact .inr ⟨h, by simp [push, h]⟩
  · exact .inl ⟨by have := s.SP.isLt; simp only [Config.stackDepth] at h ⊢; omega, by simp [push, h]⟩

theorem pop_cases (s : State cfg) :
    (s.SP.val = 0 ∧ pop s = .error ⟨.stackUnderflow, 0#16⟩) ∨
    (0 < s.SP.val ∧ pop s = .ok (s.slot (s.SP.val - 1), s.popped)) := by
  by_cases h : s.SP.val = 0
  · exact .inl ⟨h, by simp [pop, h]⟩
  · exact .inr ⟨by omega, by simp [pop, h]⟩

/-- A slot number below 16 names a slot of the stack. -/
theorem slot_eq (s : State cfg) (k : Nat) (h : k < Config.stackDepth) : s.slot k = s.stack[k] := by
  simp [State.slot, List.getD, h]

/-! ### Running an instruction (40_step_cycle.md rule R96) -/

theorem runPure_eq (i : Instr) (s : State cfg) (f : State cfg → State cfg) : runPure i s f = .next (f s.advancePC) := rfl

/-- Everything running an instruction can do: its whole effect, or the error taken in the state it started from. -/
theorem runInstr_cases (i : Instr) (s : State cfg) (f : State cfg → Except Raised (State cfg)) :
    (∃ t, f s.advancePC = .ok t ∧ runInstr i s f = .next t) ∨
    (∃ e, f s.advancePC = .error e ∧ runInstr i s f = .next (s.takeError (encode i) e)) := by
  unfold runInstr
  cases f s.advancePC with
  | ok t => exact .inl ⟨t, rfl, rfl⟩
  | error e => exact .inr ⟨e, rfl, rfl⟩

/-! ### Fetch (40_step_cycle.md rule R91) -/

theorem fetch_cases (s : State cfg) :
    (s.PC.toNat ≤ 4094 ∧ fetch s = .ok (bigEndian (s.mem.get s.PC.toNat) (s.mem.get (s.PC.toNat + 1)))) ∨
    (4094 < s.PC.toNat ∧ fetch s = .error (oobError (firstOOB s.PC.toNat))) := by
  by_cases h : s.PC.toNat ≤ 4094
  · exact .inl ⟨h, by simp [fetch, inRange, Config.memSize]; omega⟩
  · exact .inr ⟨by omega, by simp [fetch, inRange, Config.memSize]; omega⟩

/-! ### The step (40_step_cycle.md rule R100), over any meaning of the instructions -/

section Step

variable {run : Instr → State cfg → Host.Outcome (State cfg) Fault Refusal} {s : State cfg}

theorem stepBy_faulted (h : s.runState = .faulted) : stepBy run s = .next s := by
  simp only [stepBy, h]

theorem stepBy_awaitKey (h : s.runState = .awaitKey) : stepBy run s = .next s.resumeWait := by
  simp only [stepBy, h]

theorem stepBy_fetch_error (h : s.runState = .running) {e : Raised} (hf : fetch s = .error e) :
    stepBy run s = .next (s.takeError 0#16 e) := by
  simp only [stepBy, h, hf]

theorem stepBy_illegal (h : s.runState = .running) {w : Word} (hf : fetch s = .ok w) {e : Reject}
    (hd : decode w = .error e) : stepBy run s = .next (s.takeError w invalidInstruction) := by
  simp only [stepBy, h, hf, hd]

theorem stepBy_decoded (h : s.runState = .running) {w : Word} (hf : fetch s = .ok w) {i : Instr}
    (hd : decode w = .ok i) : stepBy run s = run i s := by
  simp only [stepBy, h, hf, hd]

end Step

/-- Two bytes put together and taken apart. -/
theorem bigEndian_bytes (w : Word) : bigEndian (highByte w) (lowByte w) = w := by
  simp only [bigEndian, highByte, lowByte]
  ext i hi
  simp only [BitVec.getElem_append, BitVec.getElem_extractLsb']
  split
  · simp [BitVec.getLsbD_eq_getElem hi]
  · rw [show 8 + (i - 8) = i by omega, BitVec.getLsbD_eq_getElem hi]

end Sys2Proof.Machine
end

