-- ==== Sys2Proof/Laws/Exec.lean ====
section
/-! SUPPORT. One lemma per instruction that says its next state in the named updates of State; an instruction that may
raise has one lemma for each of its two ways to end. Provers cite these and do
not unfold `exec` again. -/

namespace Sys2Proof.Machine

theorem incPC_eq (a : Word) : incPC a = a + 2#16 := rfl

theorem incPC_incPC (a : Word) : incPC (incPC a) = a + 4#16 := by
  simp only [incPC, BitVec.add_assoc]; rfl

/-! ### Instructions that cannot raise -/

theorem exec_cls (s : State) : exec .cls s = .next ((s.setPC (incPC s.PC)).setFb (Grid.blank _ _)) := rfl
theorem exec_jp (nnn : Addr12) (s : State) : exec (.jp nnn) s = .next (s.setPC (zext16 nnn)) := rfl
theorem exec_jpV0 (nnn : Addr12) (s : State) : exec (.jpV0 nnn) s = .next (s.setPC (jumpOffset nnn (s.reg v0))) := rfl
theorem exec_seImm (x : Reg) (nn : Byte) (s : State) :
    exec (.seImm x nn) s = .next ((s.setPC (incPC s.PC)).skipIf (s.reg x == nn)) := rfl
theorem exec_sneImm (x : Reg) (nn : Byte) (s : State) :
    exec (.sneImm x nn) s = .next ((s.setPC (incPC s.PC)).skipIf (s.reg x != nn)) := rfl
theorem exec_seReg (x y : Reg) (s : State) :
    exec (.seReg x y) s = .next ((s.setPC (incPC s.PC)).skipIf (s.reg x == s.reg y)) := rfl
theorem exec_sneReg (x y : Reg) (s : State) :
    exec (.sneReg x y) s = .next ((s.setPC (incPC s.PC)).skipIf (s.reg x != s.reg y)) := rfl
theorem exec_skp (x : Reg) (s : State) :
    exec (.skp x) s = .next ((s.setPC (incPC s.PC)).skipIf (s.keyMatch (s.reg x))) := rfl
theorem exec_sknp (x : Reg) (s : State) :
    exec (.sknp x) s = .next ((s.setPC (incPC s.PC)).skipIf (!s.keyMatch (s.reg x))) := rfl
theorem exec_ldImm (x : Reg) (nn : Byte) (s : State) :
    exec (.ldImm x nn) s = .next ((s.setPC (incPC s.PC)).setReg x nn) := rfl
theorem exec_addImm (x : Reg) (nn : Byte) (s : State) :
    exec (.addImm x nn) s = .next ((s.setPC (incPC s.PC)).setReg x (addMod (s.reg x) nn)) := rfl
theorem exec_ldReg (x y : Reg) (s : State) :
    exec (.ldReg x y) s = .next ((s.setPC (incPC s.PC)).setReg x (s.reg y)) := rfl
theorem exec_orReg (x y : Reg) (s : State) :
    exec (.orReg x y) s = .next ((s.setPC (incPC s.PC)).setReg x (s.reg x ||| s.reg y)) := rfl
theorem exec_andReg (x y : Reg) (s : State) :
    exec (.andReg x y) s = .next ((s.setPC (incPC s.PC)).setReg x (s.reg x &&& s.reg y)) := rfl
theorem exec_xorReg (x y : Reg) (s : State) :
    exec (.xorReg x y) s = .next ((s.setPC (incPC s.PC)).setReg x (s.reg x ^^^ s.reg y)) := rfl
theorem exec_addReg (x y : Reg) (s : State) :
    exec (.addReg x y) s = .next (((s.setPC (incPC s.PC)).setFlag (carryOut (s.reg x) (s.reg y))).setReg x
      (addMod (s.reg x) (s.reg y))) := rfl
theorem exec_sub (x y : Reg) (s : State) :
    exec (.sub x y) s = .next (((s.setPC (incPC s.PC)).setFlag (borrowOut (s.reg x) (s.reg y))).setReg x
      (subMod (s.reg x) (s.reg y))) := rfl
theorem exec_subn (x y : Reg) (s : State) :
    exec (.subn x y) s = .next (((s.setPC (incPC s.PC)).setFlag (borrowOut (s.reg y) (s.reg x))).setReg x
      (subMod (s.reg y) (s.reg x))) := rfl
theorem exec_shr (x y : Reg) (s : State) :
    exec (.shr x y) s = .next (((s.setPC (incPC s.PC)).setFlag (shiftedOutRight (s.reg x))).setReg x
      (BitVec.ofNat 8 ((s.reg x).toNat / 2))) := rfl
theorem exec_shl (x y : Reg) (s : State) :
    exec (.shl x y) s = .next (((s.setPC (incPC s.PC)).setFlag (shiftedOutLeft (s.reg x))).setReg x
      (BitVec.ofNat 8 ((s.reg x).toNat * 2))) := rfl
theorem exec_rnd (x : Reg) (nn : Byte) (s : State) :
    exec (.rnd x nn) s = .next ((s.setPC (incPC s.PC)).drawn.setReg x (Config.randomByte s.draws &&& nn)) := rfl
theorem exec_ldI (nnn : Addr12) (s : State) : exec (.ldI nnn) s = .next ((s.setPC (incPC s.PC)).setI (zext16 nnn)) := rfl
theorem exec_addIX (x : Reg) (s : State) :
    exec (.addIX x) s = .next ((s.setPC (incPC s.PC)).setI (indexSum s.I (s.reg x))) := rfl
theorem exec_ldFX (x : Reg) (s : State) :
    exec (.ldFX x) s = .next ((s.setPC (incPC s.PC)).setI (glyphAddr s.fontBase (s.reg x))) := rfl
theorem exec_ldXDT (x : Reg) (s : State) : exec (.ldXDT x) s = .next ((s.setPC (incPC s.PC)).setReg x s.DT) := rfl
theorem exec_ldDTX (x : Reg) (s : State) : exec (.ldDTX x) s = .next ((s.setPC (incPC s.PC)).setDT (s.reg x)) := rfl
theorem exec_ldSTX (x : Reg) (s : State) : exec (.ldSTX x) s = .next ((s.setPC (incPC s.PC)).setST (s.reg x)) := rfl

theorem exec_ldXK_latched (x : Reg) (s : State) (h : s.keyValid = true) :
    exec (.ldXK x) s = .next ((s.setPC (incPC s.PC)).setReg x s.keyByte) := by
  simp only [exec, execLdXK, runPure_eq, State.advancePC_eq, State.setPC_keyValid, h, if_true]; rfl

theorem exec_ldXK_none (x : Reg) (s : State) (h : s.keyValid = false) :
    exec (.ldXK x) s = .next ((s.setPC (incPC s.PC)).beginWait x) := by
  simp [exec, execLdXK, runPure_eq, h]

/-! ### Instructions that may raise -/

theorem exec_ret_ok (s : State) (h : 0 < s.SP.val) :
    exec .ret s = .next ((s.setPC (incPC s.PC)).popped.setPC (s.slot (s.SP.val - 1))) := by
  rcases pop_cases s.advancePC with ⟨h0, _⟩ | ⟨_, hp⟩
  · rw [State.advancePC_eq, State.setPC_SP] at h0; omega
  · simp only [exec, execRet, runInstr, hp, Except.map]; rfl

theorem exec_ret_error (s : State) (h : s.SP.val = 0) :
    exec .ret s = .next (s.takeError (encode .ret) ⟨.stackUnderflow, 0#16⟩) := by
  rcases pop_cases s.advancePC with ⟨_, hp⟩ | ⟨h0, _⟩
  · simp only [exec, execRet, runInstr, hp, Except.map]
  · rw [State.advancePC_eq, State.setPC_SP] at h0; omega

theorem exec_call_ok (nnn : Addr12) (s : State) (h : s.SP.val < Config.stackDepth) :
    exec (.call nnn) s
      = .next ((s.pushed (incPC s.PC) h).setPC (zext16 nnn)) := by
  rcases push_cases s.advancePC.PC s.advancePC with ⟨h0, _⟩ | ⟨_, hp⟩
  · rw [State.advancePC_eq, State.setPC_SP] at h0; omega
  · simp only [exec, execCall, runInstr, hp, Except.map]; rfl

theorem exec_call_error (nnn : Addr12) (s : State) (h : s.SP.val = Config.stackDepth) :
    exec (.call nnn) s = .next (s.takeError (encode (.call nnn)) ⟨.stackOverflow, 0#16⟩) := by
  rcases push_cases s.advancePC.PC s.advancePC with ⟨_, hp⟩ | ⟨h0, _⟩
  · simp only [exec, execCall, runInstr, hp, Except.map]
  · rw [State.advancePC_eq, State.setPC_SP] at h0; omega

theorem exec_drw_ok (x y : Reg) (n : Fin 16) (s : State) (h : n.val = 0 ∨ s.base + n.val ≤ Config.memSize) :
    exec (.drw x y n) s = .next
      (((s.setPC (incPC s.PC)).setFb
          (drawSprite Config.params.displayW_pos Config.params.displayH_pos s.fb (s.reg x).toNat (s.reg y).toNat (s.mem.getMany s.base n.val)).1).setFlag
        (drawSprite Config.params.displayW_pos Config.params.displayH_pos s.fb (s.reg x).toNat (s.reg y).toNat (s.mem.getMany s.base n.val)).2) := by
  rcases readRange_cases s.advancePC.mem s.advancePC.base n.val with ⟨_, h0, _⟩ | ⟨_, hp⟩
  · have : s.advancePC.base = s.base := rfl
    omega
  · simp only [exec, execDrw, runInstr, hp, Except.map]; rfl

theorem exec_drw_error (x y : Reg) (n : Fin 16) (s : State) (hn : 0 < n.val) (h : Config.memSize < s.base + n.val) :
    exec (.drw x y n) s = .next (s.takeError (encode (.drw x y n)) (oobError (firstOOB s.base))) := by
  rcases readRange_cases s.advancePC.mem s.advancePC.base n.val with ⟨_, _, hp⟩ | ⟨h0, _⟩
  · simp only [exec, execDrw, runInstr, hp, Except.map]; rfl
  · have : s.advancePC.base = s.base := rfl
    omega

theorem exec_ldBX_ok (x : Reg) (s : State) (h : s.base + 3 ≤ Config.memSize) :
    exec (.ldBX x) s = .next ((s.setPC (incPC s.PC)).setMem (s.mem.setMany s.base (bcdDigits (s.reg x)))) := by
  rcases writeRange_cases s.advancePC.mem s.advancePC.base (bcdDigits (s.advancePC.reg x)) with ⟨_, h0, _⟩ | ⟨_, hp⟩
  · have : s.advancePC.base = s.base := rfl
    simp only [length_bcdDigits] at h0
    omega
  · simp only [exec, execLdBX, runInstr, hp, Except.map]; rfl

theorem exec_ldBX_error (x : Reg) (s : State) (h : Config.memSize < s.base + 3) :
    exec (.ldBX x) s = .next (s.takeError (encode (.ldBX x)) (oobError (firstOOB s.base))) := by
  rcases writeRange_cases s.advancePC.mem s.advancePC.base (bcdDigits (s.advancePC.reg x)) with ⟨_, _, hp⟩ | ⟨h0, _⟩
  · simp only [exec, execLdBX, runInstr, hp, Except.map]; rfl
  · have : s.advancePC.base = s.base := rfl
    simp only [length_bcdDigits] at h0
    omega

theorem exec_ldMemX_ok (x : Reg) (s : State) (h : s.base + (x.val + 1) ≤ Config.memSize) :
    exec (.ldMemX x) s = .next ((s.setPC (incPC s.PC)).setMem (s.mem.setMany s.base (s.regsUpTo x))) := by
  rcases writeRange_cases s.advancePC.mem s.advancePC.base (s.advancePC.regsUpTo x) with ⟨_, h0, _⟩ | ⟨_, hp⟩
  · have : s.advancePC.base = s.base := rfl
    simp only [length_regsUpTo] at h0
    omega
  · simp only [exec, execLdMemX, runInstr, hp, Except.map]; rfl

theorem exec_ldMemX_error (x : Reg) (s : State) (h : Config.memSize < s.base + (x.val + 1)) :
    exec (.ldMemX x) s = .next (s.takeError (encode (.ldMemX x)) (oobError (firstOOB s.base))) := by
  rcases writeRange_cases s.advancePC.mem s.advancePC.base (s.advancePC.regsUpTo x) with ⟨_, _, hp⟩ | ⟨h0, _⟩
  · simp only [exec, execLdMemX, runInstr, hp, Except.map]; rfl
  · have : s.advancePC.base = s.base := rfl
    simp only [length_regsUpTo] at h0
    omega

theorem exec_ldXMem_ok (x : Reg) (s : State) (h : s.base + (x.val + 1) ≤ Config.memSize) :
    exec (.ldXMem x) s = .next ((s.setPC (incPC s.PC)).loadRegs (s.mem.getMany s.base (x.val + 1))) := by
  rcases readRange_cases s.advancePC.mem s.advancePC.base (x.val + 1) with ⟨_, h0, _⟩ | ⟨_, hp⟩
  · have : s.advancePC.base = s.base := rfl
    omega
  · simp only [exec, execLdXMem, runInstr, hp, Except.map]; rfl

theorem exec_ldXMem_error (x : Reg) (s : State) (h : Config.memSize < s.base + (x.val + 1)) :
    exec (.ldXMem x) s = .next (s.takeError (encode (.ldXMem x)) (oobError (firstOOB s.base))) := by
  rcases readRange_cases s.advancePC.mem s.advancePC.base (x.val + 1) with ⟨_, _, hp⟩ | ⟨h0, _⟩
  · simp only [exec, execLdXMem, runInstr, hp, Except.map]; rfl
  · have : s.advancePC.base = s.base := rfl
    omega

/-! ### Registers loaded in order -/

/-- What V[r] holds after the registers from V[i] up are filled with a list of bytes. -/
theorem getElem_fillRegs (V : Vector Byte 16) (i : Nat) (bs : List Byte) (r : Fin 16) :
    (fillRegs V i bs)[r] = if h : i ≤ r.val ∧ r.val - i < bs.length then bs[r.val - i] else V[r] := by
  induction bs generalizing V i with
  | nil => simp [fillRegs]
  | cons b bs ih =>
    rw [fillRegs, ih]
    by_cases h1 : i + 1 ≤ r.val ∧ r.val - (i + 1) < bs.length
    · have h2 : i ≤ r.val ∧ r.val - i < (b :: bs).length := by simp only [List.length_cons]; omega
      rw [dif_pos h1, dif_pos h2]
      have : r.val - i = (r.val - (i + 1)) + 1 := by omega
      simp only [this, List.getElem_cons_succ]
    · rw [dif_neg h1]
      by_cases h3 : i = r.val
      · subst h3
        simp
      · have h2 : ¬ (i ≤ r.val ∧ r.val - i < (b :: bs).length) := by simp only [List.length_cons]; omega
        rw [dif_neg h2]
        simp [h3]

/-- V[r] after V0..Vx are loaded from memory. -/
theorem reg_loadRegs_getMany {cfg : Params} (s : State cfg) (x r : Reg) (m : Memory) (a : Nat) :
    (s.loadRegs (m.getMany a (x.val + 1))).reg r = if r ≤ x then m.get (a + r.val) else s.reg r := by
  show (fillRegs s.V 0 (m.getMany a (x.val + 1)))[r] = _
  rw [getElem_fillRegs]
  by_cases h : r ≤ x
  · rw [dif_pos (by rw [Fin.le_def] at h; simp only [Memory.length_getMany]; omega), if_pos h]
    simp
  · rw [dif_neg (by rw [Fin.le_def] at h; simp only [Memory.length_getMany]; omega), if_neg h]
    rfl

/-- The byte at `a + r` after V0..Vx are stored from `a` up. -/
theorem get_setMany_regsUpTo {cfg : Params} (s : State cfg) (x r : Reg) (a : Nat) (hr : r ≤ x) (hm : s.mem.wf = true)
    (ha : a + (x.val + 1) ≤ Config.memSize) : (s.mem.setMany a (s.regsUpTo x)).get (a + r.val) = s.reg r := by
  rw [Fin.le_def] at hr
  rw [Memory.get_setMany_inside _ hm (by rw [length_regsUpTo]; exact ha)
    (show r.val < (s.regsUpTo x).length by rw [length_regsUpTo]; omega), getElem_regsUpTo]

theorem zext16_toNat (nnn : Addr12) : (zext16 nnn).toNat = nnn.toNat := by
  have := nnn.isLt
  simp only [zext16, BitVec.toNat_setWidth]
  omega

end Sys2Proof.Machine
end

