-- ==== Sys2Proof/Laws/Effect.lean ====
section
/-! SUPPORT. The inversion of `exec` and of `step`: everything an instruction, and a step, can do, said once in the named
updates of State, so that frames and invariants are case analyses over it. -/

namespace Sys2Proof.Machine

/-- Everything instruction `i` can do to state `s`. -/
inductive Effect (i : Instr) (s : State) : State → Prop where
  | overflow (nnn : Addr12) : i = .call nnn → s.SP.val = 16 →
      Effect i s (s.takeError (encode i) ⟨.stackOverflow, 0#16⟩)
  | underflow : i = .ret → s.SP.val = 0 → Effect i s (s.takeError (encode i) ⟨.stackUnderflow, 0#16⟩)
  | outside : 0 < i.touchedBytes → 4096 < s.base + i.touchedBytes →
      Effect i s (s.takeError (encode i) (oobError (firstOOB s.base)))
  | ret : i = .ret → 0 < s.SP.val → Effect i s ((s.setPC (incPC s.PC)).popped.setPC (s.slot (s.SP.val - 1)))
  | call (nnn : Addr12) (h : s.SP.val < Config.stackDepth) : i = .call nnn →
      Effect i s ((s.pushed (incPC s.PC) h).setPC (zext16 nnn))
  | transfer (pc : Word) : i.isTransfer = true → Effect i s (s.setPC pc)
  | write (x : Reg) (v : Byte) : i.isTransfer = false → i.mayWriteReg x = true →
      Effect i s ((s.setPC (incPC s.PC)).setReg x v)
  | flagged (x : Reg) (v : Byte) (c : Bool) : i.isTransfer = false → i.mayWriteReg x = true →
      i.mayWriteReg 15 = true → Effect i s (((s.setPC (incPC s.PC)).setFlag c).setReg x v)
  | random (x : Reg) (nn : Byte) (v : Byte) : i = .rnd x nn → Effect i s ((s.setPC (incPC s.PC)).drawn.setReg x v)
  | index (v : Word) : (∃ nnn, i = .ldI nnn) ∨ (∃ x, i = .addIX x) ∨ (∃ x, i = .ldFX x) →
      Effect i s ((s.setPC (incPC s.PC)).setI v)
  | delay (x : Reg) : i = .ldDTX x → Effect i s ((s.setPC (incPC s.PC)).setDT (s.reg x))
  | sound (x : Reg) : i = .ldSTX x → Effect i s ((s.setPC (incPC s.PC)).setST (s.reg x))
  | clear (g : Framebuffer) : i = .cls → Effect i s ((s.setPC (incPC s.PC)).setFb g)
  | draw (x y : Reg) (n : Fin 16) (g : Framebuffer) (c : Bool) : i = .drw x y n →
      Effect i s (((s.setPC (incPC s.PC)).setFb g).setFlag c)
  | wait (x : Reg) : i = .ldXK x → s.keyValid = false → Effect i s ((s.setPC (incPC s.PC)).beginWait x)
  | store (bs : List Byte) : i.isTransfer = false → i.storedBytes = bs.length →
      s.base + bs.length ≤ Config.memSize → Effect i s ((s.setPC (incPC s.PC)).setMem (s.mem.setMany s.base bs))
  | load (x : Reg) (bs : List Byte) : i = .ldXMem x → bs.length = x.val + 1 →
      Effect i s ((s.setPC (incPC s.PC)).loadRegs bs)

/-- Every instruction answers a next state, and that state is one of the effects above. -/
theorem exec_effect (i : Instr) (s : State) : ∃ t, exec i s = .next t ∧ Effect i s t := by
  cases i
  case ret =>
    by_cases h : s.SP.val = 0
    · exact ⟨_, exec_ret_error s h, .underflow rfl h⟩
    · exact ⟨_, exec_ret_ok s (by omega), .ret rfl (by omega)⟩
  case call nnn =>
    by_cases h : s.SP.val < Config.stackDepth
    · exact ⟨_, exec_call_ok nnn s h, .call nnn h rfl⟩
    · have h16 : s.SP.val = Config.stackDepth := by
        have := s.SP.isLt
        simp only [Config.stackDepth] at h ⊢
        omega
      exact ⟨_, exec_call_error nnn s h16, .overflow nnn rfl h16⟩
  case drw x y n =>
    by_cases h : n.val = 0 ∨ s.base + n.val ≤ Config.memSize
    · exact ⟨_, exec_drw_ok x y n s h, .draw x y n _ _ rfl⟩
    · exact ⟨_, exec_drw_error x y n s (by omega) (by omega),
        .outside (show 0 < n.val by omega) (show Config.memSize < s.base + n.val by omega)⟩
  case ldBX x =>
    by_cases h : s.base + 3 ≤ Config.memSize
    · exact ⟨_, exec_ldBX_ok x s h, .store _ rfl rfl h⟩
    · exact ⟨_, exec_ldBX_error x s (by omega),
        .outside (show 0 < 3 by omega) (show Config.memSize < s.base + 3 by omega)⟩
  case ldMemX x =>
    by_cases h : s.base + (x.val + 1) ≤ Config.memSize
    · exact ⟨_, exec_ldMemX_ok x s h, .store _ rfl (length_regsUpTo s x).symm (by rw [length_regsUpTo]; exact h)⟩
    · exact ⟨_, exec_ldMemX_error x s (by omega),
        .outside (show 0 < x.val + 1 by omega) (show Config.memSize < s.base + (x.val + 1) by omega)⟩
  case ldXMem x =>
    by_cases h : s.base + (x.val + 1) ≤ Config.memSize
    · exact ⟨_, exec_ldXMem_ok x s h, .load x _ rfl (Memory.length_getMany _ _ _)⟩
    · exact ⟨_, exec_ldXMem_error x s (by omega),
        .outside (show 0 < x.val + 1 by omega) (show Config.memSize < s.base + (x.val + 1) by omega)⟩
  case ldXK x =>
    cases h : s.keyValid
    · exact ⟨_, exec_ldXK_none x s h, .wait x rfl h⟩
    · exact ⟨_, exec_ldXK_latched x s h, .write x _ rfl (by simp [Instr.mayWriteReg])⟩
  case cls => exact ⟨_, exec_cls s, .clear _ rfl⟩
  case jp nnn => exact ⟨_, exec_jp nnn s, .transfer _ rfl⟩
  case jpV0 nnn => exact ⟨_, exec_jpV0 nnn s, .transfer _ rfl⟩
  case seImm x nn => exact ⟨_, (exec_seImm _ _ s).trans (congrArg _ (State.skipIf_eq _ _)), .transfer _ rfl⟩
  case sneImm x nn => exact ⟨_, (exec_sneImm _ _ s).trans (congrArg _ (State.skipIf_eq _ _)), .transfer _ rfl⟩
  case seReg x y => exact ⟨_, (exec_seReg _ _ s).trans (congrArg _ (State.skipIf_eq _ _)), .transfer _ rfl⟩
  case sneReg x y => exact ⟨_, (exec_sneReg _ _ s).trans (congrArg _ (State.skipIf_eq _ _)), .transfer _ rfl⟩
  case skp x => exact ⟨_, (exec_skp _ s).trans (congrArg _ (State.skipIf_eq _ _)), .transfer _ rfl⟩
  case sknp x => exact ⟨_, (exec_sknp _ s).trans (congrArg _ (State.skipIf_eq _ _)), .transfer _ rfl⟩
  case ldImm x nn => exact ⟨_, exec_ldImm x nn s, .write x _ rfl (by simp [Instr.mayWriteReg])⟩
  case addImm x nn => exact ⟨_, exec_addImm x nn s, .write x _ rfl (by simp [Instr.mayWriteReg])⟩
  case ldReg x y => exact ⟨_, exec_ldReg x y s, .write x _ rfl (by simp [Instr.mayWriteReg])⟩
  case orReg x y => exact ⟨_, exec_orReg x y s, .write x _ rfl (by simp [Instr.mayWriteReg])⟩
  case andReg x y => exact ⟨_, exec_andReg x y s, .write x _ rfl (by simp [Instr.mayWriteReg])⟩
  case xorReg x y => exact ⟨_, exec_xorReg x y s, .write x _ rfl (by simp [Instr.mayWriteReg])⟩
  case addReg x y => exact ⟨_, exec_addReg x y s, .flagged x _ _ rfl (by simp [Instr.mayWriteReg]) (by simp [Instr.mayWriteReg])⟩
  case sub x y => exact ⟨_, exec_sub x y s, .flagged x _ _ rfl (by simp [Instr.mayWriteReg]) (by simp [Instr.mayWriteReg])⟩
  case shr x y => exact ⟨_, exec_shr x y s, .flagged x _ _ rfl (by simp [Instr.mayWriteReg]) (by simp [Instr.mayWriteReg])⟩
  case subn x y => exact ⟨_, exec_subn x y s, .flagged x _ _ rfl (by simp [Instr.mayWriteReg]) (by simp [Instr.mayWriteReg])⟩
  case shl x y => exact ⟨_, exec_shl x y s, .flagged x _ _ rfl (by simp [Instr.mayWriteReg]) (by simp [Instr.mayWriteReg])⟩
  case rnd x nn => exact ⟨_, exec_rnd x nn s, .random x nn _ rfl⟩
  case ldXDT x => exact ⟨_, exec_ldXDT x s, .write x _ rfl (by simp [Instr.mayWriteReg])⟩
  case ldDTX x => exact ⟨_, exec_ldDTX x s, .delay x rfl⟩
  case ldSTX x => exact ⟨_, exec_ldSTX x s, .sound x rfl⟩
  case ldI nnn => exact ⟨_, exec_ldI nnn s, .index _ (.inl ⟨nnn, rfl⟩)⟩
  case addIX x => exact ⟨_, exec_addIX x s, .index _ (.inr (.inl ⟨x, rfl⟩))⟩
  case ldFX x => exact ⟨_, exec_ldFX x s, .index _ (.inr (.inr ⟨x, rfl⟩))⟩

/-- What an instruction did, from the state it answered. -/
theorem effect_of_exec {i : Instr} {s t : State} (h : exec i s = .next t) : Effect i s t := by
  obtain ⟨u, hu, he⟩ := exec_effect i s
  rw [h] at hu
  injection hu with hu
  exact hu ▸ he

/-- Everything a step can do. -/
theorem step_effect {s t : State} (h : step s = .next t) :
    (s.runState = .faulted ∧ t = s) ∨
    (s.runState = .awaitKey ∧ t = s.resumeWait) ∨
    (s.runState = .running ∧ 4094 < s.PC.toNat ∧ t = s.takeError 0#16 (oobError (firstOOB s.PC.toNat))) ∨
    (∃ w, s.runState = .running ∧ fetch s = .ok w ∧ (∀ i, decode w ≠ .ok i) ∧ t = s.takeError w invalidInstruction) ∨
    (∃ w i, s.runState = .running ∧ fetch s = .ok w ∧ decode w = .ok i ∧ Effect i s t) := by
  unfold step at h
  cases hr : s.runState with
  | faulted =>
    rw [stepBy_faulted hr] at h
    injection h with h
    exact .inl ⟨rfl, h.symm⟩
  | awaitKey =>
    rw [stepBy_awaitKey hr] at h
    injection h with h
    exact .inr (.inl ⟨rfl, h.symm⟩)
  | running =>
    rcases fetch_cases s with ⟨_, hf⟩ | ⟨hp, hf⟩
    · cases hd : decode (bigEndian (s.mem.get s.PC.toNat) (s.mem.get (s.PC.toNat + 1))) with
      | ok i =>
        rw [stepBy_decoded hr hf hd] at h
        exact .inr (.inr (.inr (.inr ⟨_, i, rfl, hf, hd, effect_of_exec h⟩)))
      | error e =>
        rw [stepBy_illegal hr hf hd] at h
        injection h with h
        exact .inr (.inr (.inr (.inl ⟨_, rfl, hf, fun i hi => by simp [hd] at hi, h.symm⟩)))
    · rw [stepBy_fetch_error hr hf] at h
      injection h with h
      exact .inr (.inr (.inl ⟨rfl, hp, h.symm⟩))

end Sys2Proof.Machine
end

