-- ==== Sys2Proof/Laws/Format.lean ====
section
/-! SUPPORT. The laws of the formats of 30_encoding.md rule R72: each masked as the opcode table masks it, and register
numbers to 4 bits and back. -/

namespace Sys2Proof

@[simp] theorem nibbleIndex_indexNibble (r : Fin 16) : nibbleIndex (indexNibble r) = r := by
  apply Fin.ext
  simp [nibbleIndex, indexNibble]

@[simp] theorem indexNibble_nibbleIndex (b : BitVec 4) : indexNibble (nibbleIndex b) = b := by
  simp [nibbleIndex, indexNibble]

/-- The 16 values of a 4-bit field, for a case split over `op`. -/
theorem nibble_cases : ∀ b : BitVec 4, b = 0#4 ∨ b = 1#4 ∨ b = 2#4 ∨ b = 3#4 ∨ b = 4#4 ∨ b = 5#4 ∨ b = 6#4 ∨ b = 7#4 ∨
    b = 8#4 ∨ b = 9#4 ∨ b = 10#4 ∨ b = 11#4 ∨ b = 12#4 ∨ b = 13#4 ∨ b = 14#4 ∨ b = 15#4 := by decide

/-- Masking two joined halves masks each. -/
theorem append_and {m n : Nat} (a c : BitVec m) (b d : BitVec n) : (a ++ b) &&& (c ++ d) = (a &&& c) ++ (b &&& d) := by
  ext i hi
  simp only [BitVec.getElem_and, BitVec.getElem_append]
  split <;> simp

theorem formatA_mask (op : BitVec 4) (nnn : Addr12) : formatA op nnn &&& 0xF000#16 = op ++ (0#12 : BitVec 12) := by
  rw [formatA, show (0xF000#16 : Word) = (0xF#4 ++ 0x000#12 : BitVec (4 + 12)) from rfl, append_and,
    show (0xF#4 : BitVec 4) = BitVec.allOnes 4 from rfl, BitVec.and_allOnes, BitVec.and_zero]

theorem formatXK_mask (op : BitVec 4) (x : Reg) (nn : Byte) :
    formatXK op x nn &&& 0xF000#16 = op ++ (0#12 : BitVec 12) := formatA_mask op _

theorem formatXY_mask (op : BitVec 4) (x y : Reg) (n : BitVec 4) :
    formatXY op x y n &&& 0xF000#16 = op ++ (0#12 : BitVec 12) := formatA_mask op _

theorem formatXK_mask_sub (op : BitVec 4) (x : Reg) (nn : Byte) :
    formatXK op x nn &&& 0xF0FF#16 = op ++ (0#4 ++ nn : BitVec 12) := by
  rw [formatXK, show (0xF0FF#16 : Word) = (0xF#4 ++ (0x0#4 ++ 0xFF#8 : BitVec 12) : BitVec (4 + 12)) from rfl,
    append_and]
  rw [show (indexNibble x ++ nn : BitVec 12) &&& (0x0#4 ++ 0xFF#8 : BitVec 12)
      = (indexNibble x &&& 0x0#4) ++ (nn &&& 0xFF#8) from append_and _ _ _ _]
  rw [show (0xF#4 : BitVec 4) = BitVec.allOnes 4 from rfl, show (0xFF#8 : BitVec 8) = BitVec.allOnes 8 from rfl,
    BitVec.and_allOnes, BitVec.and_allOnes, BitVec.and_zero]

theorem formatXY_mask_sub (op : BitVec 4) (x y : Reg) (n : BitVec 4) :
    formatXY op x y n &&& 0xF00F#16 = op ++ (0#4 ++ (0#4 ++ n : BitVec 8) : BitVec 12) := by
  rw [formatXY, show (0xF00F#16 : Word)
      = (0xF#4 ++ (0x0#4 ++ (0x0#4 ++ 0xF#4 : BitVec 8) : BitVec 12) : BitVec (4 + 12)) from rfl, append_and]
  rw [show (indexNibble x ++ (indexNibble y ++ n : BitVec 8) : BitVec 12)
        &&& (0x0#4 ++ (0x0#4 ++ 0xF#4 : BitVec 8) : BitVec 12)
      = (indexNibble x &&& 0x0#4) ++ ((indexNibble y ++ n : BitVec 8) &&& (0x0#4 ++ 0xF#4 : BitVec 8))
      from append_and _ _ _ _]
  rw [show (indexNibble y ++ n : BitVec 8) &&& (0x0#4 ++ 0xF#4 : BitVec 8)
      = (indexNibble y &&& 0x0#4) ++ (n &&& 0xF#4) from append_and _ _ _ _]
  rw [show (0xF#4 : BitVec 4) = BitVec.allOnes 4 from rfl, BitVec.and_allOnes, BitVec.and_allOnes, BitVec.and_zero,
    BitVec.and_zero]

/-! ### Fields of a format, and a word put together from its fields -/

theorem extractLsb'_append_high {m n : Nat} (a : BitVec m) (b : BitVec n) : (a ++ b).extractLsb' n m = a := by
  ext i hi
  simp [BitVec.getElem_extractLsb', BitVec.getLsbD_append, BitVec.getLsbD_eq_getElem hi]

theorem extractLsb'_append_low {m n k : Nat} (a : BitVec m) (b : BitVec n) (l : Nat) (h : l + k ≤ n) :
    (a ++ b).extractLsb' l k = b.extractLsb' l k := by
  ext i hi
  simp [BitVec.getElem_extractLsb', BitVec.getLsbD_append, show l + i < n by omega]

theorem extractLsb'_all {n : Nat} (a : BitVec n) : a.extractLsb' 0 n = a := by
  ext i hi
  simp

theorem append_extract {m n : Nat} (w : BitVec (m + n)) : w.extractLsb' n m ++ w.extractLsb' 0 n = w := by
  ext i hi
  simp only [BitVec.getElem_append, BitVec.getElem_extractLsb']
  split
  · rw [Nat.zero_add, BitVec.getLsbD_eq_getElem hi]
  · rw [show n + (i - n) = i by omega, BitVec.getLsbD_eq_getElem hi]

theorem fieldOp_formatA (op : BitVec 4) (nnn : Addr12) : fieldOp (formatA op nnn) = op :=
  extractLsb'_append_high op nnn
theorem fieldNNN_formatA (op : BitVec 4) (nnn : Addr12) : fieldNNN (formatA op nnn) = nnn :=
  (extractLsb'_append_low (m := 4) (n := 12) (k := 12) op nnn 0 (by omega)).trans (extractLsb'_all nnn)
theorem fieldOp_formatXK (op : BitVec 4) (x : Reg) (nn : Byte) : fieldOp (formatXK op x nn) = op :=
  fieldOp_formatA op _
theorem fieldX_formatXK (op : BitVec 4) (x : Reg) (nn : Byte) : fieldX (formatXK op x nn) = indexNibble x :=
  (extractLsb'_append_low (m := 4) (n := 12) (k := 4) op (indexNibble x ++ nn : BitVec (4 + 8)) 8 (by omega)).trans
    (extractLsb'_append_high (indexNibble x) nn)
theorem fieldNN_formatXK (op : BitVec 4) (x : Reg) (nn : Byte) : fieldNN (formatXK op x nn) = nn :=
  (extractLsb'_append_low (m := 4) (n := 12) (k := 8) op (indexNibble x ++ nn : BitVec (4 + 8)) 0 (by omega)).trans
    ((extractLsb'_append_low (m := 4) (n := 8) (k := 8) (indexNibble x) nn 0 (by omega)).trans (extractLsb'_all nn))
theorem fieldOp_formatXY (op : BitVec 4) (x y : Reg) (n : BitVec 4) : fieldOp (formatXY op x y n) = op :=
  fieldOp_formatA op _
theorem fieldX_formatXY (op : BitVec 4) (x y : Reg) (n : BitVec 4) : fieldX (formatXY op x y n) = indexNibble x :=
  fieldX_formatXK op x _
theorem fieldNN_formatXY (op : BitVec 4) (x y : Reg) (n : BitVec 4) :
    fieldNN (formatXY op x y n) = (indexNibble y ++ n : BitVec (4 + 4)) := fieldNN_formatXK op x _
theorem fieldY_formatXY (op : BitVec 4) (x y : Reg) (n : BitVec 4) : fieldY (formatXY op x y n) = indexNibble y :=
  (extractLsb'_append_low (m := 4) (n := 12) (k := 4) op
    (indexNibble x ++ (indexNibble y ++ n : BitVec (4 + 4)) : BitVec (4 + 8)) 4 (by omega)).trans
    ((extractLsb'_append_low (m := 4) (n := 8) (k := 4) (indexNibble x)
      (indexNibble y ++ n : BitVec (4 + 4)) 4 (by omega)).trans
      (extractLsb'_append_high (indexNibble y) n))
theorem fieldN_formatXY (op : BitVec 4) (x y : Reg) (n : BitVec 4) : fieldN (formatXY op x y n) = n :=
  (extractLsb'_append_low (m := 4) (n := 12) (k := 4) op
    (indexNibble x ++ (indexNibble y ++ n : BitVec (4 + 4)) : BitVec (4 + 8)) 0 (by omega)).trans
    ((extractLsb'_append_low (m := 4) (n := 8) (k := 4) (indexNibble x)
      (indexNibble y ++ n : BitVec (4 + 4)) 0 (by omega)).trans
      ((extractLsb'_append_low (m := 4) (n := 4) (k := 4) (indexNibble y) n 0 (by omega)).trans (extractLsb'_all n)))

/-- A word is format `A` of its own fields. -/
theorem formatA_fields (w : Word) : formatA (fieldOp w) (fieldNNN w) = w := append_extract (m := 4) (n := 12) w

theorem fieldNNN_eq (w : Word) : fieldNNN w = (fieldX w ++ fieldNN w : BitVec (4 + 8)) := by
  have h := append_extract (m := 4) (n := 8) (fieldNNN w)
  rw [← h]
  congr 1 <;> (ext i hi; simp [fieldX, fieldNN, fieldNNN, BitVec.getElem_extractLsb']; try omega)

theorem fieldNN_eq (w : Word) : fieldNN w = (fieldY w ++ fieldN w : BitVec (4 + 4)) := by
  have h := append_extract (m := 4) (n := 4) (fieldNN w)
  rw [← h]
  congr 1 <;> (ext i hi; simp [fieldY, fieldN, fieldNN, BitVec.getElem_extractLsb']; try omega)

/-- A word is format `XK` of its own fields. -/
theorem formatXK_fields (w : Word) : formatXK (fieldOp w) (nibbleIndex (fieldX w)) (fieldNN w) = w := by
  conv => rhs; rw [← formatA_fields w, fieldNNN_eq]
  rw [formatXK, indexNibble_nibbleIndex]; rfl

/-- A word is format `XY` of its own fields. -/
theorem formatXY_fields (w : Word) :
    formatXY (fieldOp w) (nibbleIndex (fieldX w)) (nibbleIndex (fieldY w)) (fieldN w) = w := by
  conv => rhs; rw [← formatXK_fields w, fieldNN_eq]
  rw [formatXY, indexNibble_nibbleIndex, indexNibble_nibbleIndex, formatXK, indexNibble_nibbleIndex]

/-! ### What the families decode to -/

theorem decode8_word {x y : Reg} {n : BitVec 4} {i : Instr} (h : decode8 x y n = .ok i) :
    encode i = formatXY 0x8#4 x y n := by
  unfold decode8 at h
  repeat' split at h
  all_goals first
    | (simp at h; done)
    | (injection h with h; subst h; subst_vars; rfl)

theorem decodeE_word {x : Reg} {nn : Byte} {i : Instr} (h : decodeE x nn = .ok i) : encode i = formatXK 0xE#4 x nn := by
  unfold decodeE at h
  repeat' split at h
  all_goals first
    | (simp at h; done)
    | (injection h with h; subst h; subst_vars; rfl)

theorem decodeF_word {x : Reg} {nn : Byte} {i : Instr} (h : decodeF x nn = .ok i) : encode i = formatXK 0xF#4 x nn := by
  unfold decodeF at h
  repeat' split at h
  all_goals first
    | (simp at h; done)
    | (injection h with h; subst h; subst_vars; rfl)

end Sys2Proof
end

