-- ==== Sys2Proof/Laws/Parameters.lean ====
section
/-! SUPPORT. The machine at any parameters (00_scope.md rule R9): the dispatch, the step and a transaction are those of the
decided values when the parameters are; and one lemma for each instruction whose meaning reads a parameter. -/

namespace Sys2Proof.Machine

theorem execAt_eq_exec (i : Instr) (s : State) : execAt i s = exec i s := by
  cases i <;> rfl

theorem stepAt_eq_step (s : State) : stepAt s = step s :=
  congrArg (fun run => stepBy run s) (funext fun i => funext fun t => execAt_eq_exec i t)

theorem transactAt_eq_transact (tr : Transaction) (s : State) : transactAt tr s = transact tr s :=
  congrArg (fun run => transactBy run tr s) (funext fun i => funext fun t => execAt_eq_exec i t)

variable {cfg : Params}

theorem execAt_sub (x y : Reg) (s : State cfg) : execAt (.sub x y) s =
    .next (((s.setPC (incPC s.PC)).setFlag (subFlag cfg.subFlagSense (borrowOut (s.reg x) (s.reg y)))).setReg x
      (subMod (s.reg x) (s.reg y))) := rfl

theorem execAt_subn (x y : Reg) (s : State cfg) : execAt (.subn x y) s =
    .next (((s.setPC (incPC s.PC)).setFlag (subFlag cfg.subFlagSense (borrowOut (s.reg y) (s.reg x)))).setReg x
      (subMod (s.reg y) (s.reg x))) := rfl

theorem execAt_shr (x y : Reg) (s : State cfg) : execAt (.shr x y) s =
    .next (((s.setPC (incPC s.PC)).setFlag (shiftedOutRight (shiftOperand cfg.shiftSource (s.reg x) (s.reg y)))).setReg x
      (BitVec.ofNat 8 ((shiftOperand cfg.shiftSource (s.reg x) (s.reg y)).toNat / 2))) := rfl

theorem execAt_shl (x y : Reg) (s : State cfg) : execAt (.shl x y) s =
    .next (((s.setPC (incPC s.PC)).setFlag (shiftedOutLeft (shiftOperand cfg.shiftSource (s.reg x) (s.reg y)))).setReg x
      (BitVec.ofNat 8 ((shiftOperand cfg.shiftSource (s.reg x) (s.reg y)).toNat * 2))) := rfl

theorem execAt_rnd (x : Reg) (nn : Byte) (s : State cfg) : execAt (.rnd x nn) s =
    .next ((s.setPC (incPC s.PC)).drawn.setReg x (cfg.randomByte s.draws &&& nn)) := rfl

theorem execAt_cls (s : State cfg) : execAt .cls s = .next ((s.setPC (incPC s.PC)).setFb (Grid.blank _ _)) := rfl

theorem execAt_drw_ok (x y : Reg) (n : Fin 16) (s : State cfg) (h : n.val = 0 ∨ s.base + n.val ≤ Config.memSize) :
    execAt (.drw x y n) s = .next
      (((s.setPC (incPC s.PC)).setFb (drawSprite cfg.displayW_pos cfg.displayH_pos s.fb (s.reg x).toNat (s.reg y).toNat
          (s.mem.getMany s.base n.val)).1).setFlag
        (drawSprite cfg.displayW_pos cfg.displayH_pos s.fb (s.reg x).toNat (s.reg y).toNat
          (s.mem.getMany s.base n.val)).2) := by
  rcases readRange_cases s.advancePC.mem s.advancePC.base n.val with ⟨_, h0, _⟩ | ⟨_, hp⟩
  · have : s.advancePC.base = s.base := rfl
    omega
  · simp only [execAt, execDrw, runInstr, hp, Except.map]; rfl

end Sys2Proof.Machine
end

