-- ==== Sys2Proof/Laws/PerInstr.lean ====
section
/-! SUPPORT. Statements made per instruction. The family `OwnTableRow`: the encoding of an instruction is admitted by
the row of spec/opcode_table.json that the instruction stands for. -/

namespace Sys2Proof.Laws.OwnTableRow

/-- The instruction's row is in the opcode table, and the instruction's word matches it. -/
def Statement (i : Instr) : Prop := i.row ∈ opcodeTable ∧ i.row.admits (encode i) = true

/-- A row given as the word's masked bits admits the word. -/
theorem admits_of_masked {r : OpcodeRow} {w : Word} (h : w &&& r.mask = r.pattern) : r.admits w = true := by
  simp [OpcodeRow.admits, h]

theorem cls : Statement .cls := ⟨by decide, by decide⟩
theorem ret : Statement .ret := ⟨by decide, by decide⟩
theorem jp (nnn : Addr12) : Statement (.jp nnn) :=
  ⟨by simp [opcodeTable, Instr.row], admits_of_masked ((formatA_mask _ _).trans rfl)⟩
theorem call (nnn : Addr12) : Statement (.call nnn) :=
  ⟨by simp [opcodeTable, Instr.row], admits_of_masked ((formatA_mask _ _).trans rfl)⟩
theorem seImm (x : Reg) (nn : Byte) : Statement (.seImm x nn) :=
  ⟨by simp [opcodeTable, Instr.row], admits_of_masked ((formatXK_mask _ _ _).trans rfl)⟩
theorem sneImm (x : Reg) (nn : Byte) : Statement (.sneImm x nn) :=
  ⟨by simp [opcodeTable, Instr.row], admits_of_masked ((formatXK_mask _ _ _).trans rfl)⟩
theorem seReg (x y : Reg) : Statement (.seReg x y) :=
  ⟨by simp [opcodeTable, Instr.row], admits_of_masked ((formatXY_mask_sub _ _ _ _).trans rfl)⟩
theorem ldImm (x : Reg) (nn : Byte) : Statement (.ldImm x nn) :=
  ⟨by simp [opcodeTable, Instr.row], admits_of_masked ((formatXK_mask _ _ _).trans rfl)⟩
theorem addImm (x : Reg) (nn : Byte) : Statement (.addImm x nn) :=
  ⟨by simp [opcodeTable, Instr.row], admits_of_masked ((formatXK_mask _ _ _).trans rfl)⟩
theorem ldReg (x y : Reg) : Statement (.ldReg x y) :=
  ⟨by simp [opcodeTable, Instr.row], admits_of_masked ((formatXY_mask_sub _ _ _ _).trans rfl)⟩
theorem orReg (x y : Reg) : Statement (.orReg x y) :=
  ⟨by simp [opcodeTable, Instr.row], admits_of_masked ((formatXY_mask_sub _ _ _ _).trans rfl)⟩
theorem andReg (x y : Reg) : Statement (.andReg x y) :=
  ⟨by simp [opcodeTable, Instr.row], admits_of_masked ((formatXY_mask_sub _ _ _ _).trans rfl)⟩
theorem xorReg (x y : Reg) : Statement (.xorReg x y) :=
  ⟨by simp [opcodeTable, Instr.row], admits_of_masked ((formatXY_mask_sub _ _ _ _).trans rfl)⟩
theorem addReg (x y : Reg) : Statement (.addReg x y) :=
  ⟨by simp [opcodeTable, Instr.row], admits_of_masked ((formatXY_mask_sub _ _ _ _).trans rfl)⟩
theorem sub (x y : Reg) : Statement (.sub x y) :=
  ⟨by simp [opcodeTable, Instr.row], admits_of_masked ((formatXY_mask_sub _ _ _ _).trans rfl)⟩
theorem shr (x y : Reg) : Statement (.shr x y) :=
  ⟨by simp [opcodeTable, Instr.row], admits_of_masked ((formatXY_mask_sub _ _ _ _).trans rfl)⟩
theorem subn (x y : Reg) : Statement (.subn x y) :=
  ⟨by simp [opcodeTable, Instr.row], admits_of_masked ((formatXY_mask_sub _ _ _ _).trans rfl)⟩
theorem shl (x y : Reg) : Statement (.shl x y) :=
  ⟨by simp [opcodeTable, Instr.row], admits_of_masked ((formatXY_mask_sub _ _ _ _).trans rfl)⟩
theorem sneReg (x y : Reg) : Statement (.sneReg x y) :=
  ⟨by simp [opcodeTable, Instr.row], admits_of_masked ((formatXY_mask_sub _ _ _ _).trans rfl)⟩
theorem ldI (nnn : Addr12) : Statement (.ldI nnn) :=
  ⟨by simp [opcodeTable, Instr.row], admits_of_masked ((formatA_mask _ _).trans rfl)⟩
theorem jpV0 (nnn : Addr12) : Statement (.jpV0 nnn) :=
  ⟨by simp [opcodeTable, Instr.row], admits_of_masked ((formatA_mask _ _).trans rfl)⟩
theorem rnd (x : Reg) (nn : Byte) : Statement (.rnd x nn) :=
  ⟨by simp [opcodeTable, Instr.row], admits_of_masked ((formatXK_mask _ _ _).trans rfl)⟩
theorem drw (x y : Reg) (n : Fin 16) : Statement (.drw x y n) :=
  ⟨by simp [opcodeTable, Instr.row], admits_of_masked ((formatXY_mask _ _ _ _).trans rfl)⟩
theorem skp (x : Reg) : Statement (.skp x) :=
  ⟨by simp [opcodeTable, Instr.row], admits_of_masked ((formatXK_mask_sub _ _ _).trans rfl)⟩
theorem sknp (x : Reg) : Statement (.sknp x) :=
  ⟨by simp [opcodeTable, Instr.row], admits_of_masked ((formatXK_mask_sub _ _ _).trans rfl)⟩
theorem ldXDT (x : Reg) : Statement (.ldXDT x) :=
  ⟨by simp [opcodeTable, Instr.row], admits_of_masked ((formatXK_mask_sub _ _ _).trans rfl)⟩
theorem ldXK (x : Reg) : Statement (.ldXK x) :=
  ⟨by simp [opcodeTable, Instr.row], admits_of_masked ((formatXK_mask_sub _ _ _).trans rfl)⟩
theorem ldDTX (x : Reg) : Statement (.ldDTX x) :=
  ⟨by simp [opcodeTable, Instr.row], admits_of_masked ((formatXK_mask_sub _ _ _).trans rfl)⟩
theorem ldSTX (x : Reg) : Statement (.ldSTX x) :=
  ⟨by simp [opcodeTable, Instr.row], admits_of_masked ((formatXK_mask_sub _ _ _).trans rfl)⟩
theorem addIX (x : Reg) : Statement (.addIX x) :=
  ⟨by simp [opcodeTable, Instr.row], admits_of_masked ((formatXK_mask_sub _ _ _).trans rfl)⟩
theorem ldFX (x : Reg) : Statement (.ldFX x) :=
  ⟨by simp [opcodeTable, Instr.row], admits_of_masked ((formatXK_mask_sub _ _ _).trans rfl)⟩
theorem ldBX (x : Reg) : Statement (.ldBX x) :=
  ⟨by simp [opcodeTable, Instr.row], admits_of_masked ((formatXK_mask_sub _ _ _).trans rfl)⟩
theorem ldMemX (x : Reg) : Statement (.ldMemX x) :=
  ⟨by simp [opcodeTable, Instr.row], admits_of_masked ((formatXK_mask_sub _ _ _).trans rfl)⟩
theorem ldXMem (x : Reg) : Statement (.ldXMem x) :=
  ⟨by simp [opcodeTable, Instr.row], admits_of_masked ((formatXK_mask_sub _ _ _).trans rfl)⟩

end Sys2Proof.Laws.OwnTableRow
end

