-- ==== Sys2Proof/Laws/Transactions.lean ====
section
/-! SUPPORT. One lemma per host transaction that says everything it can do. -/

namespace Sys2Proof.Machine

theorem tickTimer_toNat (v : Byte) : (tickTimer v).toNat = v.toNat - 1 := by
  have := v.isLt
  unfold tickTimer
  split
  · rw [BitVec.toNat_sub_of_le (by rw [BitVec.le_def]; simp; omega)]; rfl
  · omega

theorem load_cases {cfg : Params} (s : State cfg) (addr : Nat) (bs : List Byte) :
    (0 < bs.length ∧ Config.memSize < addr + bs.length ∧ s.load addr bs = (s, .memoryOutOfBounds)) ∨
    ((bs.length = 0 ∨ addr + bs.length ≤ Config.memSize) ∧
      s.load addr bs = (s.setMem (s.mem.setMany addr bs), .ok)) := by
  by_cases h : rangeRefused addr bs.length = true
  · have := (rangeRefused_iff _ _).1 h
    exact .inl ⟨this.1, this.2, by simp [State.load, h]⟩
  · have := mt (rangeRefused_iff addr bs.length).2 h
    exact .inr ⟨by omega, by simp [State.load, h]⟩

theorem installFont_cases {cfg : Params} (s : State cfg) (addr : Nat) (gs : List Byte) :
    ((gs.length ≠ 80 ∨ 4016 < addr) ∧ s.installFont addr gs = (s, .memoryOutOfBounds)) ∨
    (gs.length = 80 ∧ addr ≤ 4016 ∧ s.installFont addr gs =
      ({ s with mem := s.mem.setMany addr gs, fontBase := BitVec.ofNat 16 addr }, .ok)) := by
  unfold State.installFont
  split
  · rename_i h
    simp only [inRange, Config.fontBytes, Config.memSize, decide_eq_true_eq] at h
    exact .inr ⟨h.1, by omega, rfl⟩
  · rename_i h
    simp only [inRange, Config.fontBytes, Config.memSize, decide_eq_true_eq] at h
    exact .inl ⟨by omega, rfl⟩

/-- A step answers a next state, so the transaction STEP does too. -/
theorem step_answers (s : State) : ∃ t, step s = .next t := by
  unfold step
  cases hr : s.runState with
  | faulted => exact ⟨_, stepBy_faulted hr⟩
  | awaitKey => exact ⟨_, stepBy_awaitKey hr⟩
  | running =>
    rcases fetch_cases s with ⟨_, hf⟩ | ⟨_, hf⟩
    · cases hd : decode (bigEndian (s.mem.get s.PC.toNat) (s.mem.get (s.PC.toNat + 1))) with
      | ok i =>
        obtain ⟨t, h, _⟩ := exec_effect i s
        exact ⟨t, (stepBy_decoded hr hf hd).trans h⟩
      | error e => exact ⟨_, stepBy_illegal hr hf hd⟩
    · exact ⟨_, stepBy_fetch_error hr hf⟩

/-- The transaction STEP, from the step. -/
theorem transact_step {s t : State} (h : step s = .next t) : transact .step s = .next (t, .stepped t.stepResult) := by
  have h : stepBy exec s = .next t := h
  simp only [transact, transactBy, stepTransaction, h]

end Sys2Proof.Machine
end

