-- ==== Sys2Proof/Tests/Slice0.lean ====
section
/-! SUPPORT. Tests. Expected results are those of spec/95_test_vectors.md, whose ids each docstring names, and words are
written out from the encodings of spec/30_encoding.md and spec/opcode_table.json. Then, for every obligation with
hypotheses, a witness that meets them together, clause by clause, at the boundary of its range. -/

namespace Sys2Proof.Tests

open Sys2Proof.Machine

/-! ### Well-formedness -/

/-- Each class of illegal words, one word or two each, is refused by the table check (E1, E2, E3, C16, C18, A31). -/
theorem test_wf_refuses_each_illegal_class :
    wordLegal 0x0000#16 = false ∧ wordLegal 0x01E0#16 = false ∧ wordLegal 0x00FE#16 = false ∧
    wordLegal 0x5121#16 = false ∧ wordLegal 0x912F#16 = false ∧ wordLegal 0x8128#16 = false ∧
    wordLegal 0x812F#16 = false ∧ wordLegal 0xE09F#16 = false ∧ wordLegal 0xF030#16 = false ∧
    wordLegal 0xFFFF#16 = false := by decide

/-- A row that fixes a bit its mask leaves out is refused, and every row of the table passes. -/
theorem test_wf_refuses_ill_formed_row :
    (OpcodeRow.mk "bad" 0x1001#16 0xF000#16).wf = false ∧ opcodeTable.all OpcodeRow.wf = true := by decide

theorem test_wf_reset_memory : State.reset.mem.wf = true := by decide

/-- A memory out of order, one with an entry that reads as an unlisted byte, and one outside the address space. -/
theorem test_wf_refuses_memory :
    Memory.wf [(0x301, 1#8), (0x300, 1#8)] = false ∧ Memory.wf [(0x300, 0#8)] = false ∧
    Memory.wf [(4096, 1#8)] = false ∧ Memory.wf [(4095, 1#8)] = true := by decide

/-! ### Decode: a word of every row, written out bit by bit -/

theorem test_decode_control :
    decode 0b0000000011101110#16 = .ok .ret ∧ decode 0b0001101010111100#16 = .ok (.jp 0xABC#12) ∧
    decode 0b0010001100000000#16 = .ok (.call 0x300#12) ∧ decode 0b0011001100010000#16 = .ok (.seImm 3 0x10#8) ∧
    decode 0b0100001100010001#16 = .ok (.sneImm 3 0x11#8) ∧ decode 0b0101000100100000#16 = .ok (.seReg 1 2) ∧
    decode 0b1001111000010000#16 = .ok (.sneReg 14 1) ∧ decode 0b1011111111111110#16 = .ok (.jpV0 0xFFE#12) := by
  decide

theorem test_decode_loads_and_random :
    decode 0b0110101010011100#16 = .ok (.ldImm 10 0x9C#8) ∧ decode 0b0111000111111110#16 = .ok (.addImm 1 0xFE#8) ∧
    decode 0b1100000100001111#16 = .ok (.rnd 1 0x0F#8) := by decide

theorem test_decode_alu :
    decode 0b1000000100100000#16 = .ok (.ldReg 1 2) ∧ decode 0b1000000100100001#16 = .ok (.orReg 1 2) ∧
    decode 0b1000000100100010#16 = .ok (.andReg 1 2) ∧ decode 0b1000000100100011#16 = .ok (.xorReg 1 2) ∧
    decode 0b1000111100010100#16 = .ok (.addReg 15 1) ∧ decode 0b1000111100010101#16 = .ok (.sub 15 1) ∧
    decode 0b1000000111110110#16 = .ok (.shr 1 15) ∧ decode 0b1000111000010111#16 = .ok (.subn 14 1) ∧
    decode 0b1000001100001110#16 = .ok (.shl 3 0) := by decide

theorem test_decode_index_and_memory :
    decode 0b1010001100000001#16 = .ok (.ldI 0x301#12) ∧ decode 0b1111001000011110#16 = .ok (.addIX 2) ∧
    decode 0b1111000100101001#16 = .ok (.ldFX 1) ∧ decode 0b1111101000110011#16 = .ok (.ldBX 10) ∧
    decode 0b1111001001010101#16 = .ok (.ldMemX 2) ∧ decode 0b1111001001100101#16 = .ok (.ldXMem 2) := by decide

theorem test_decode_display :
    decode 0b0000000011100000#16 = .ok .cls ∧ decode 0b1101111100010110#16 = .ok (.drw 15 1 6) := by decide

theorem test_decode_keys_and_timers :
    decode 0b1110001010011110#16 = .ok (.skp 2) ∧ decode 0b1110001010100001#16 = .ok (.sknp 2) ∧
    decode 0b1111001100000111#16 = .ok (.ldXDT 3) ∧ decode 0b1111000100001010#16 = .ok (.ldXK 1) ∧
    decode 0b1111001100010101#16 = .ok (.ldDTX 3) ∧ decode 0b1111010000011000#16 = .ok (.ldSTX 4) := by decide

/-- The host's numbering: bit 0 is the least significant bit of the one word (opcode_table.json). -/
theorem test_decode_table_word :
    decodeTableWord 16 0xD016 = some (.drw 0 1 6) ∧ decodeTableWord 16 0x5121 = none := by decide

/-- The mnemonics of programs P1, P2 and P4 of 95_test_vectors.md. -/
theorem test_asm : (Instr.ldImm 10 0x9C#8).asm = "LD VA, 9C" ∧ (Instr.call 0x210#12).asm = "CALL 210" ∧
    (Instr.ldXMem 2).asm = "LD V2, [I]" ∧ (Instr.drw 0 0 1).asm = "DRW V0, V0, 1" := by decide

/-! ### One step of each instruction -/

/-- The reset state with registers and I set. -/
def withRegs (rs : List (Fin 16 × Nat)) (i : Nat := 0) : State :=
  rs.foldl (fun s p => s.setReg p.1 (BitVec.ofNat 8 p.2)) (State.reset.setI (BitVec.ofNat 16 i))

/-- A state with bytes of memory written. -/
def poke (s : State) (a : Nat) (bs : List Byte) : State := s.setMem (s.mem.setMany a bs)

/-- A state with a key latched. -/
def withKey (s : State) (k : Fin 16) : State := { s with keyValid := true, keyValue := k }

/-- One step that runs the word `w` placed at PC ends in a next state, of which `p` holds. -/
def after (w : Nat) (s : State) (p : State → Bool) : Bool :=
  match step (s.withFetchWord 16 w) with
  | .next t => p t
  | .fault _ => false
  | .refused _ => false

/-- The bytes memory holds from an address up. -/
def peek (s : State) (a k : Nat) : List Nat := (s.mem.getMany a k).map BitVec.toNat

/-- S6 and C2. -/
theorem test_ret :
    after 0x00EE { State.reset with SP := 1, stack := State.reset.stack.set 0 0x206#16 }
      (fun t => t.PC == 0x206#16 && t.SP == 0 && t.stack[0] == 0x206#16) = true ∧
    after 0x00EE State.reset
      (fun t => t.fault == ⟨.stackUnderflow, 0x200#16, 0x00EE#16, 0#16⟩ && t.PC == 0x200#16) = true := by decide

/-- C4. -/
theorem test_jp : after 0x1ABC State.reset (fun t => t.PC == 0xABC#16 && t.SP == 0) = true := by decide

/-- C9 and C10. -/
theorem test_call :
    after 0x2300 { State.reset with SP := 15 }
      (fun t => t.stack[15] == 0x202#16 && t.SP == 16 && t.PC == 0x300#16) = true ∧
    after 0x2300 { State.reset with SP := 16 }
      (fun t => t.fault == ⟨.stackOverflow, 0x200#16, 0x2300#16, 0#16⟩ && t.SP == 16 && t.PC == 0x200#16
        && t.runState == .faulted) = true := by decide

/-- C12. -/
theorem test_se_imm : after 0x3310 (withRegs [(3, 0x10)]) (fun t => t.PC == 0x204#16) = true ∧
    after 0x3311 (withRegs [(3, 0x10)]) (fun t => t.PC == 0x202#16) = true := by decide

/-- C13. -/
theorem test_sne_imm : after 0x4310 (withRegs [(3, 0x10)]) (fun t => t.PC == 0x202#16) = true ∧
    after 0x4311 (withRegs [(3, 0x10)]) (fun t => t.PC == 0x204#16) = true := by decide

/-- C14 and C15. -/
theorem test_se_reg : after 0x5120 (withRegs [(1, 7), (2, 7)]) (fun t => t.PC == 0x204#16) = true ∧
    after 0x5120 (withRegs [(1, 7), (2, 8)]) (fun t => t.PC == 0x202#16) = true := by decide

/-- C17. -/
theorem test_sne_reg : after 0x9120 (withRegs [(1, 7), (2, 8)]) (fun t => t.PC == 0x204#16) = true ∧
    after 0x9110 (withRegs [(1, 7), (2, 8)]) (fun t => t.PC == 0x202#16) = true := by decide

/-- C20. -/
theorem test_jp_v0 : after 0xBFFF (withRegs [(0, 0xFF)]) (fun t => t.PC == 0x10FE#16) = true := by decide

/-- A1 and A2. -/
theorem test_ld_imm : after 0x6A9C State.reset (fun t => t.reg 10 == 0x9C#8) = true ∧
    after 0x6F07 State.reset (fun t => t.reg 15 == 0x07#8) = true := by decide

/-- S1 and A5. -/
theorem test_add_imm :
    after 0x7002 (withRegs [(0, 0xFF), (15, 0x55)]) (fun t => t.reg 0 == 1#8 && t.reg 15 == 0x55#8) = true ∧
    after 0x7F01 (withRegs [(15, 0xFF)]) (fun t => t.reg 15 == 0#8) = true := by decide

/-- A6. -/
theorem test_ld_reg :
    after 0x8120 (withRegs [(2, 0x33), (15, 0x55)]) (fun t => t.reg 1 == 0x33#8 && t.reg 15 == 0x55#8) = true := by decide

/-- A7. -/
theorem test_or : after 0x8121 (withRegs [(1, 0x0F), (2, 0xF0), (15, 0x55)])
    (fun t => t.reg 1 == 0xFF#8 && t.reg 15 == 0x55#8) = true := by decide

/-- A8. -/
theorem test_and : after 0x8122 (withRegs [(1, 0x3C), (2, 0x0F)]) (fun t => t.reg 1 == 0x0C#8) = true := by decide

/-- A9. -/
theorem test_xor : after 0x8123 (withRegs [(1, 0xFF), (2, 0x0F)]) (fun t => t.reg 1 == 0xF0#8) = true := by decide

/-- A20 and A22: VF as the destination, and as the second operand. -/
theorem test_add :
    after 0x8F14 (withRegs [(15, 0x30), (1, 0xF0)]) (fun t => t.reg 15 == 0x20#8) = true ∧
    after 0x81F4 (withRegs [(1, 0x01), (15, 0xFF)]) (fun t => t.reg 1 == 0#8 && t.reg 15 == 1#8) = true := by decide

/-- A14 and A21. -/
theorem test_sub :
    after 0x8125 (withRegs [(1, 0x10), (2, 0x20)]) (fun t => t.reg 1 == 0xF0#8 && t.reg 15 == 1#8) = true ∧
    after 0x8F15 (withRegs [(15, 0x10), (1, 0x20)]) (fun t => t.reg 15 == 0xF0#8) = true := by decide

/-- A26 and A29. -/
theorem test_shr :
    after 0x8126 (withRegs [(1, 0xFF), (2, 0x03)]) (fun t => t.reg 1 == 0x7F#8 && t.reg 15 == 1#8) = true ∧
    after 0x8F06 (withRegs [(15, 0x06)]) (fun t => t.reg 15 == 0x03#8) = true := by decide

/-- A18 and A19. -/
theorem test_subn :
    after 0x8127 (withRegs [(1, 0x20), (2, 0x10)]) (fun t => t.reg 1 == 0xF0#8 && t.reg 15 == 1#8) = true ∧
    after 0x8127 (withRegs [(1, 0x10), (2, 0x20)]) (fun t => t.reg 1 == 0x10#8 && t.reg 15 == 0#8) = true := by decide

/-- A28 and S10. -/
theorem test_shl :
    after 0x812E (withRegs [(1, 0x01), (2, 0x80)]) (fun t => t.reg 1 == 0x02#8 && t.reg 15 == 0#8) = true ∧
    after 0x810E (withRegs [(1, 0x81)]) (fun t => t.reg 1 == 0x02#8 && t.reg 15 == 1#8) = true := by decide

/-- A30, the one draw whose result no draw can change: C100; the count of draws goes up by one. -/
theorem test_rnd : after 0xC100 (withRegs [(1, 0x5A)]) (fun t => t.draws == 1 && t.PC == 0x202#16) = true ∧
    ∀ k : Byte, k &&& 0#8 = 0#8 := by decide

/-- M1. -/
theorem test_ld_i : after 0xAFFF State.reset (fun t => t.I == 0x0FFF#16) = true := by decide

/-- M3 and M4. -/
theorem test_add_i_x : after 0xF21E (withRegs [(2, 1)] 0xFFFF) (fun t => t.I == 0#16 && t.reg 15 == 0#8) = true ∧
    after 0xF21E (withRegs [(2, 1)] 0x0FFF) (fun t => t.I == 0x1000#16) = true := by decide

/-- S13 and M5. -/
theorem test_ld_f_x :
    after 0xF129 { withRegs [(1, 0x0A)] with fontBase := 0x050#16 } (fun t => t.I == 0x082#16) = true ∧
    after 0xF129 { withRegs [(1, 0xFF)] with fontBase := 0x050#16 } (fun t => t.I == 0x54B#16) = true := by decide

/-- S4 and M9. -/
theorem test_ld_b_x :
    after 0xF333 (withRegs [(3, 156)] 0x300) (fun t => peek t 0x300 3 == [1, 5, 6] && t.I == 0x300#16) = true ∧
    after 0xF133 (withRegs [] 0x0FFE)
      (fun t => t.fault == ⟨.memoryOutOfBounds, 0x200#16, 0xF133#16, 0x1000#16⟩) = true := by decide

/-- M10 and M13. -/
theorem test_ld_mem_x :
    after 0xF255 (poke (withRegs [(0, 1), (1, 2), (2, 3)] 0x300) 0x303 [0xEE#8])
      (fun t => peek t 0x300 4 == [1, 2, 3, 0xEE] && t.I == 0x300#16) = true ∧
    after 0xFF55 (withRegs [] 0x0FF1)
      (fun t => t.fault == ⟨.memoryOutOfBounds, 0x200#16, 0xFF55#16, 0x1000#16⟩) = true := by decide

/-- M14 and M16. -/
theorem test_ld_x_mem :
    after 0xF265 (poke (withRegs [] 0x300) 0x300 [1#8, 5#8, 6#8, 7#8])
      (fun t => t.reg 0 == 1#8 && t.reg 1 == 5#8 && t.reg 2 == 6#8 && t.reg 3 == 0#8 && t.I == 0x300#16) = true ∧
    after 0xF265 (withRegs [] 0xFFFF)
      (fun t => t.fault == ⟨.memoryOutOfBounds, 0x200#16, 0xF265#16, 0xFFFF#16⟩) = true := by decide

/-- F1. -/
theorem test_cls : after 0x00E0 { withRegs [(15, 1)] with fb := State.reset.fb.toggle 31 63 }
    (fun t => t.fb.pixel 31 63 == false && t.reg 15 == 1#8) = true := by decide

/-- F5 and F3: a collision, and rows that wrap. -/
theorem test_drw :
    after 0xD001 { poke (withRegs [] 0x300) 0x300 [0x81#8] with fb := State.reset.fb.toggle 0 0 }
      (fun t => t.fb.pixel 0 0 == false && t.fb.pixel 0 7 && t.reg 15 == 1#8) = true ∧
    after 0xD012 (poke (withRegs [(1, 31)] 0x300) 0x300 [0x80#8, 0x80#8])
      (fun t => t.fb.pixel 31 0 && t.fb.pixel 0 0 && t.reg 15 == 0#8) = true := by decide

/-- F2, columns that wrap, and F9, the column in the old VF. -/
theorem test_drw_columns :
    after 0xD011 (poke (withRegs [(0, 60)] 0x300) 0x300 [0xFF#8])
      (fun t => t.fb.pixel 0 63 && t.fb.pixel 0 3 && !t.fb.pixel 0 4 && !t.fb.pixel 0 59) = true ∧
    after 0xDF01 (poke (withRegs [(15, 5), (0, 2)] 0x300) 0x300 [0x80#8])
      (fun t => t.fb.pixel 2 5 && t.reg 15 == 0#8) = true := by decide

/-- K1. -/
theorem test_skp : after 0xE29E (withKey (withRegs [(2, 5)]) 5) (fun t => t.PC == 0x204#16) = true ∧
    after 0xE29E (withKey (withRegs [(2, 0x15)]) 5) (fun t => t.PC == 0x202#16) = true := by decide

/-- K3 and K4. -/
theorem test_sknp : after 0xE2A1 (withKey (withRegs [(2, 5)]) 5) (fun t => t.PC == 0x202#16) = true ∧
    after 0xE2A1 State.reset (fun t => t.PC == 0x204#16) = true := by decide

/-- K5. -/
theorem test_ld_x_dt : after 0xF307 (State.reset.setDT 0x3C#8) (fun t => t.reg 3 == 0x3C#8) = true := by decide

/-- K9 and K10. -/
theorem test_ld_x_k :
    after 0xF10A (withKey State.reset 9)
      (fun t => t.reg 1 == 9#8 && t.stepResult == .ok && t.keyValid && t.keyValue == 9) = true ∧
    after 0xF10A State.reset
      (fun t => t.stepResult == .awaitingKey && t.PC == 0x202#16 && t.waitX == 1) = true := by decide

/-- K6. -/
theorem test_ld_dt_x : after 0xF315 (withRegs [(3, 0x3C)]) (fun t => t.DT == 0x3C#8 && t.ST == 0#8) = true := by decide

/-- K7, its first step. -/
theorem test_ld_st_x : after 0xF418 (withRegs [(4, 2)])
    (fun t => t.ST == 2#8 && t.DT == 0#8 && t.soundActive) = true := by decide

/-- S8 and E5: an illegal word, and a fetch outside memory. -/
theorem test_fetch_and_decode_errors :
    after 0xFFFF State.reset (fun t => t.fault == ⟨.invalidInstruction, 0x200#16, 0xFFFF#16, 0#16⟩) = true ∧
    (match step (State.reset.setPC 0xFFFE#16) with
      | .next t => t.fault == ⟨.memoryOutOfBounds, 0xFFFE#16, 0#16, 0xFFFE#16⟩
      | .fault _ | .refused _ => false) = true := by decide

/-- K8, K13, K16, H1, H2, H4 and H5, for the host transactions. -/
theorem test_transactions :
    (State.tick { State.reset with DT := 0xFF#8, ST := 3#8 }).DT = 0xFE#8 ∧
    (State.reset.beginWait 1 |> fun s => (s.setKey (some 3)).1.resumeWait.reg 1) = 3#8 ∧
    (State.reset.setKey (some 16)).2 = .rejected ∧
    (State.reset.load 0xFFE [1#8, 2#8, 3#8]).2 = .memoryOutOfBounds ∧
    peek (State.reset.load 0xFFD [1#8, 2#8, 3#8]).1 0xFFD 3 = [1, 2, 3] ∧
    (State.reset.installFont 4017 (List.replicate 80 1#8)).2 = .memoryOutOfBounds ∧
    (State.reset.installFont 4016 (List.replicate 80 1#8)).1.fontBase = 4016#16 := by decide

/-! ### Witnesses: states and operands that meet the hypotheses of the obligations -/

/-- The outcome is a next state. -/
def isNext {σ : Type} (o : Host.Outcome σ Fault Refusal) : Bool :=
  match o with
  | .next _ => true
  | .fault _ | .refused _ => false

theorem next_of_isNext {σ : Type} {o : Host.Outcome σ Fault Refusal} (h : isNext o = true) : ∃ t, o = .next t := by
  cases o with
  | next t => exact ⟨t, rfl⟩
  | fault r => cases r
  | refused r => simp [isNext] at h

/-- A running state at the last address a fetch can start from, with `D12F` there. -/
def lastFetch : State := poke (State.reset.setPC 0x0FFE#16) 0x0FFE [0xD1#8, 0x2F#8]

/-- A running state with an illegal word at PC. -/
def illegalAtPC : State := poke State.reset 0x200 [0xFF#8, 0xFF#8]

/-- A faulted state with a full stack, as P6 of 95_test_vectors.md leaves it. -/
def overflowed : State :=
  { State.reset with SP := 16, fault := ⟨.stackOverflow, 0x200#16, 0x2200#16, 0#16⟩, runState := .faulted }

/-- EncodeInvertsDecode. -/
theorem witness_decodable_word : decode 0xD12F#16 = .ok (.drw 1 2 15) := by decide

/-- DecodeAcceptsExactlyTheTable. -/
theorem witness_row_admits : ∃ r ∈ opcodeTable, r.admits 0xFF65#16 = true := by decide

/-- StepRunsDecodedInstruction, FetchIsBoundedAndBigEndian: PC at its last legal value. -/
theorem witness_fetch_in_range : lastFetch.runState = .running ∧ lastFetch.PC.toNat = 4094 ∧
    fetch lastFetch = .ok 0xD12F#16 ∧
    decode (lastFetch.mem.get lastFetch.PC.toNat ++ lastFetch.mem.get (lastFetch.PC.toNat + 1)) = .ok (.drw 1 2 15) := by
  decide

/-- FetchIsBoundedAndBigEndian: the first value of PC that no fetch can start from, and the last one. -/
theorem witness_fetch_out_of_range :
    (State.reset.setPC 0x0FFF#16).runState = .running ∧ 4094 < (State.reset.setPC 0x0FFF#16).PC.toNat ∧
    4094 < (State.reset.setPC 0xFFFF#16).PC.toNat := by decide

/-- IllegalWordRaisesInvalidInstruction. -/
theorem witness_illegal_word : illegalAtPC.runState = .running ∧ fetch illegalAtPC = .ok 0xFFFF#16 ∧
    ∀ i, decode 0xFFFF#16 ≠ .ok i := by
  refine ⟨by decide, by decide, fun i h => ?_⟩
  rw [show decode 0xFFFF#16 = .error .opFUnlisted by decide] at h
  cases h

/-- ErrorsArePrecise. -/
theorem witness_step_that_faults : illegalAtPC.runState = .running ∧
    ∃ t, step illegalAtPC = .next t ∧ t.runState = .faulted := ⟨by decide, _, rfl, rfl⟩

/-- IndexRelativeAccessesAreBoundsChecked: the last I in range and the first one out of it, for each of the four. -/
theorem witness_index_relative :
    0 < (Instr.drw 0 0 15).touchedBytes ∧ 0 < (Instr.ldBX 0).touchedBytes ∧
    0 < (Instr.ldMemX 15).touchedBytes ∧ 0 < (Instr.ldXMem 0).touchedBytes ∧
    (withRegs [] 0x0FFD).I.toNat + (Instr.ldBX 0).touchedBytes = 4096 ∧
    4096 < (withRegs [] 0x0FFE).I.toNat + (Instr.ldBX 0).touchedBytes ∧
    (withRegs [] 0x0FF1).I.toNat + (Instr.drw 0 0 15).touchedBytes = 4096 ∧
    4096 < (withRegs [] 0x0FF1).I.toNat + (Instr.ldMemX 15).touchedBytes ∧
    4096 < (withRegs [] 0xFFFF).I.toNat + (Instr.ldXMem 0).touchedBytes := by decide

/-- AwaitKeyStepCompletesTheWait, both clauses. -/
theorem witness_awaiting :
    (withKey (State.reset.beginWait 15) 0).runState = .awaitKey ∧
    (withKey (State.reset.beginWait 15) 0).keyValid = true ∧
    (State.reset.beginWait 15).runState = .awaitKey ∧ (State.reset.beginWait 15).keyValid = false := by decide

/-- OnlyKeyWaitInstructionAwaits: a running step that ends awaiting a key, and one that does not. -/
theorem witness_step_that_awaits :
    (poke State.reset 0x200 [0xF1#8, 0x0A#8]).runState = .running ∧
    (∃ t, step (poke State.reset 0x200 [0xF1#8, 0x0A#8]) = .next t ∧ t.stepResult = .awaitingKey) ∧
    (∃ t, step lastFetch = .next t ∧ t.stepResult ≠ .awaitingKey) :=
  ⟨by decide, ⟨_, rfl, rfl⟩, ⟨_, rfl, by decide⟩⟩

/-- FaultedStaysUntilReset. -/
theorem witness_faulted_session : overflowed.runState = .faulted ∧
    ∀ tr ∈ [Transaction.step, .tick, .load 0x300 [0xAA#8], .setKey (some 3)], tr ≠ .reset := by decide

/-- StepKeepsTheInvariant, SessionKeepsTheInvariant: a faulted state meets the invariant, and it steps. -/
theorem witness_invariant : overflowed.Inv ∧ (∃ t, step overflowed = .next t) ∧
    ∃ t, session [.step, .tick] overflowed = .next t := by
  refine ⟨?_, ⟨_, rfl⟩, next_of_isNext (by decide)⟩
  exact ⟨by decide, by decide, by decide, by decide, by decide, by decide, nofun,
    fun _ => ⟨by decide, 0x200#12, by decide⟩, nofun, nofun⟩

/-- OtherRegistersAreUnchanged, OtherMemoryIsUnchanged, OtherStateIsUnchanged, SequentialInstructionsAdvanceByTwo: an
instruction that ends in a next state, a register it may not write, and the addresses on both sides of what it stores. -/
theorem witness_frames :
    (∃ t, exec (.ldMemX 14) (withRegs [] 0x300) = .next t) ∧ (Instr.ldXMem 14).mayWriteReg 15 = false ∧
    0x2FF < (withRegs [] 0x300).base ∧ (withRegs [] 0x300).base + (Instr.ldMemX 14).storedBytes ≤ 0x30F ∧
    (Instr.ldMemX 14).isTransfer = false ∧ (withRegs [] 0x300).runState = .running :=
  ⟨next_of_isNext (by decide), by decide, by decide, by decide, by decide, by decide⟩

/-- OtherStateIsUnchanged: each kind of state does change under the instruction that writes it. -/
theorem witness_state_that_changes :
    (after 0xA300 State.reset fun t => t.I != State.reset.I) = true ∧
    (after 0x2300 State.reset fun t => t.SP != State.reset.SP && t.stack[0] != State.reset.stack[0]) = true ∧
    (after 0xF015 (withRegs [(0, 9)]) fun t => t.DT != State.reset.DT) = true ∧
    (after 0xF018 (withRegs [(0, 9)]) fun t => t.ST != State.reset.ST) = true ∧
    (after 0x00E0 { State.reset with fb := State.reset.fb.toggle 0 0 }
      fun t => t.fb.pixel 0 0 != true) = true ∧
    (after 0xF10A State.reset fun t => t.waitX != State.reset.waitX) = true ∧
    (after 0xC100 State.reset fun t => t.draws != State.reset.draws) = true := by decide

/-- NoInstructionReadsSoundTimer, StaleStackSlotsAreNotRead: a state that steps, and a slot at its SP. -/
theorem witness_stale_slot : (∃ t, step lastFetch = .next t) ∧ lastFetch.SP.val ≤ (0 : Fin 16).val :=
  ⟨⟨_, rfl⟩, by decide⟩

/-- JumpLoadsTarget: a jump to itself, and one to 4095. -/
theorem witness_jump : State.reset.PC.toNat = (0x200#12).toNat ∧ State.reset.runState = .running ∧
    (0xFFF#12).toNat = 4095 := by decide

/-- CallPushesReturnAddress, ReturnPopsOrUnderflows: the last free slot and the full stack; one address and none. -/
theorem witness_stack :
    { State.reset with SP := 15 }.SP.val < 16 ∧ { State.reset with SP := 16 }.SP.val = 16 ∧
    { State.reset with SP := 16 }.SP.val = (15 : Fin 16).val + 1 ∧
    { State.reset with SP := 1 }.SP.val = (0 : Fin 16).val + 1 ∧ State.reset.SP.val = 0 := by decide

/-- ImmediateSkips: a taken skip past the end of memory (C21). -/
theorem witness_skip_past_end : (State.reset.setPC 0x0FFC#16).runState = .running ∧
    ∃ t, exec (.seImm 0 0#8) (State.reset.setPC 0x0FFC#16) = .next t ∧ 4094 < t.PC.toNat :=
  ⟨by decide, _, rfl, by decide⟩

/-- RegisterSkips: a low nibble that is no instruction; OffsetJumpAddsVZero: the lowest sum that faults at the fetch. -/
theorem witness_skip_nibble_and_offset_jump : (0xF#4 ≠ 0#4) ∧
    4094 < (0xFFF#12).toNat + ((withRegs [(0, 0)]).reg 0).toNat ∧ (withRegs [(0, 0)]).runState = .running := by decide

/-- A display, a load address, a shift source and a flag sense other than the decided ones. -/
def otherParams : Params where
  loadAddr := 0x600#16
  displayW := 128
  displayH := 64
  shiftSource := .y
  subFlagSense := .notBorrow
  randomByte := Config.randomByte
  displayW_pos := by decide
  displayH_pos := by decide

/-- The registers V1 and V2 set, at other parameters. -/
def otherState (v1 v2 : Byte) : State otherParams := ((State.resetAt otherParams).setReg 1 v1).setReg 2 v2

/-- `execAt` ends in a next state at other parameters, of which `q` holds. -/
def otherAfter (i : Instr) (s : State otherParams) (q : State otherParams → Bool) : Bool :=
  match execAt i s with
  | .next t => q t
  | .fault _ | .refused _ => false

/-- A14 under NOT_BORROW, A26 and A28 under SHIFT_SOURCE = Y, and RESET at another LOAD_ADDR. -/
theorem test_other_parameters :
    otherAfter (.sub 1 2) (otherState 0x10#8 0x20#8) (fun t => t.reg 1 == 0xF0#8 && t.reg 15 == 0#8) = true ∧
    otherAfter (.shr 1 2) (otherState 0xFF#8 0x03#8) (fun t => t.reg 1 == 0x01#8 && t.reg 15 == 1#8) = true ∧
    otherAfter (.shl 1 2) (otherState 0x01#8 0x80#8) (fun t => t.reg 1 == 0x00#8 && t.reg 15 == 1#8) = true ∧
    (State.resetAt otherParams).PC = 0x600#16 := by decide

/-- OpenParametersBothWays: both flag senses and both shift sources occur, and a display as the draw clause asks for. -/
theorem witness_parameters :
    Config.params.subFlagSense = .borrow ∧ otherParams.subFlagSense = .notBorrow ∧ Config.params.shiftSource = .x ∧
    otherParams.shiftSource = .y ∧ 8 ≤ otherParams.displayW ∧ (15 : Fin 16).val ≤ otherParams.displayH ∧
    ((otherState 0#8 0#8).setI 0x0FF1#16).I.toNat + (15 : Fin 16).val ≤ 4096 ∧ (1 : Reg) ≠ 15 := by decide

/-- The flag clauses of the ALU statements: a destination that is not VF, and a register that is neither. -/
theorem witness_flag_registers : (14 : Reg) ≠ 15 ∧ (0 : Reg) ≠ 14 ∧ (0 : Reg) ≠ 15 := by decide

/-- FlagIsWrittenBeforeDestination: the last pair of the list. -/
theorem witness_alu_pair (x y : Reg) : (Instr.shl x y, aluShl Config.shiftSource) ∈
    [(.ldReg x y, aluCopy), (.orReg x y, aluOr), (.andReg x y, aluAnd), (.xorReg x y, aluXor),
      (.addReg x y, aluAdd), (.sub x y, aluSub Config.subFlagSense), (.shr x y, aluShr Config.shiftSource),
      (.subn x y, aluSubn Config.subFlagSense), (.shl x y, aluShl Config.shiftSource)] := by simp

/-- GlyphAddressIsFivePerGlyph: the highest font_base the invariant allows. -/
theorem witness_font_base : { State.reset with fontBase := 4016#16 }.fontBase.toNat ≤ 4016 := by decide

/-- DecimalDigitsAreStored: the last I in range, the first one out. -/
theorem witness_decimal : (withRegs [] 0x0FFD).mem.wf = true ∧ (withRegs [] 0x0FFD).I.toNat + 2 ≤ 4095 ∧
    (withRegs [] 0x0FFE).mem.wf = true ∧ 4095 < (withRegs [] 0x0FFE).I.toNat + 2 := by decide

/-- RegistersAreStored, RegistersAreLoaded, StoreThenLoadRestoresRegisters: the last I in range for x = 15, and the first
one out. -/
theorem witness_transfer : (withRegs [] 0x0FF0).mem.wf = true ∧ (withRegs [] 0x0FF0).I.toNat + (15 : Reg).val ≤ 4095 ∧
    (withRegs [] 0x0FF1).mem.wf = true ∧ 4095 < (withRegs [] 0x0FF1).I.toNat + (15 : Reg).val := by decide

/-- StoredCodeIsFetched: the last two registers of a store at the end of memory. -/
theorem witness_stored_code : (withRegs [] 0x0FF0).mem.wf = true ∧ (withRegs [] 0x0FF0).I.toNat + (15 : Reg).val ≤ 4095 ∧
    (0x0FFE#16).toNat = (withRegs [] 0x0FF0).I.toNat + (14 : Reg).val ∧ (15 : Reg).val = (14 : Reg).val + 1 ∧
    (15 : Reg) ≤ 15 := by decide

/-- MemoryPrimitives: a memory in canonical form, and the two addresses at the edge. -/
theorem witness_memory : Memory.wf [(0x300, 1#8)] = true ∧ 4095 < 4096 ∧ 4095 ≤ 4095 := by decide

/-- DrawXorsSpriteIntoFramebuffer, DrawTwiceRestoresFramebuffer: no row with I anywhere, and rows up to the last byte. -/
theorem witness_draw : ((0 : Fin 16).val = 0 ∨ (withRegs [] 0xFFFF).I.toNat + (0 : Fin 16).val ≤ 4096) ∧
    (withRegs [] 0x0FF1).I.toNat + (15 : Fin 16).val ≤ 4096 ∧ (14 : Reg) ≠ 15 := by decide

/-- KeySkips: the key 15 named; another value with the same low nibble; no key. -/
theorem witness_key_skips :
    (withKey (withRegs [(2, 15)]) 15).keyValid = true ∧
    ((withKey (withRegs [(2, 15)]) 15).reg 2).toNat = (withKey (withRegs [(2, 15)]) 15).keyValue.val ∧
    ((withKey (withRegs [(2, 31)]) 15).reg 2).toNat ≠ (withKey (withRegs [(2, 31)]) 15).keyValue.val ∧
    State.reset.keyValid = false := by decide

/-- KeyWaitStoresTheKey: both clauses, and the last key. -/
theorem witness_key_wait : State.reset.runState = .running ∧ State.reset.keyValid = false ∧
    (withKey State.reset 15).runState = .running ∧ (withKey State.reset 15).keyValid = true ∧ 15 < 16 := by decide

/-- LoadCopiesAllOrNothing: an empty load outside memory, which its first clause takes by `bs = []`, three bytes up to the last address, and three one further. -/
theorem witness_load : State.reset.mem.wf = true ∧ ([] : List Byte) = [] ∧ 4096 < 0x1001 + ([] : List Byte).length ∧
    0xFFD + [1#8, 2#8, 3#8].length ≤ 4096 ∧
    [1#8, 2#8, 3#8] ≠ [] ∧ 4096 < 0xFFE + [1#8, 2#8, 3#8].length := by decide

/-- InstallFontRecordsBase: the highest address with room, the first without, a short table, and the last glyph row. -/
theorem witness_install_font : State.reset.mem.wf = true ∧ (List.replicate 80 1#8).length = 80 ∧ 4016 ≤ 4016 ∧
    4016 < 4017 ∧ 4015 < 4016 ∧ 4016 + 80 ≤ 4096 ∧ (List.replicate 79 1#8).length ≠ 80 ∧ 5 * 15 + 4 < (List.replicate 80 1#8).length ∧
    ((withRegs [(0, 15)]).reg 0).toNat = 15 := by decide

end Sys2Proof.Tests
end

/-! Proofs of the family 20_memory.md: the checked accesses over I (rule R53) and the one-byte primitives (rule R52). -/

namespace Sys2Proof.Machine

/-! ### The accesses over I -/

/-- The instructions that touch memory from the address I holds (20_memory.md rule R56). -/
theorem indexRelative_cases {i : Instr} (h : 0 < i.touchedBytes) :
    (∃ x y n, i = .drw x y n) ∨ (∃ x, i = .ldBX x) ∨ (∃ x, i = .ldMemX x) ∨ (∃ x, i = .ldXMem x) := by
  cases i
  case drw x y n => exact .inl ⟨x, y, n, rfl⟩
  case ldBX x => exact .inr (.inl ⟨x, rfl⟩)
  case ldMemX x => exact .inr (.inr (.inl ⟨x, rfl⟩))
  case ldXMem x => exact .inr (.inr (.inr ⟨x, rfl⟩))
  all_goals exact absurd h (Nat.lt_irrefl 0)

/-- A range over I that leaves memory: the error is taken in the state the instruction started from. -/
theorem exec_outside_takes_oobError {i : Instr} {s : State} (hk : 0 < i.touchedBytes)
    (h : Config.memSize < s.base + i.touchedBytes) :
    exec i s = .next (s.takeError (encode i) (oobError (firstOOB s.base))) := by
  rcases indexRelative_cases hk with ⟨x, y, n, rfl⟩ | ⟨x, rfl⟩ | ⟨x, rfl⟩ | ⟨x, rfl⟩
  · exact exec_drw_error x y n s hk h
  · exact exec_ldBX_error x s h
  · exact exec_ldMemX_error x s h
  · exact exec_ldXMem_error x s h

/-- A range over I inside memory: no error is taken, and the run state is kept. -/
theorem exec_inside_keeps_fault {i : Instr} {s : State} (hk : 0 < i.touchedBytes)
    (h : s.base + i.touchedBytes ≤ Config.memSize) :
    ∃ t, exec i s = .next t ∧ t.fault = s.fault ∧ t.runState = s.runState := by
  rcases indexRelative_cases hk with ⟨x, y, n, rfl⟩ | ⟨x, rfl⟩ | ⟨x, rfl⟩ | ⟨x, rfl⟩
  · exact ⟨_, exec_drw_ok x y n s (.inr h), rfl, rfl⟩
  · exact ⟨_, exec_ldBX_ok x s h, rfl, rfl⟩
  · exact ⟨_, exec_ldMemX_ok x s h, rfl, rfl⟩
  · exact ⟨_, exec_ldXMem_ok x s h, rfl, rfl⟩

/-- The recorded address loses nothing in 16 bits: I and `MEM_SIZE` both fit. -/
theorem oobError_firstOOB_base_toNat {cfg : Params} (s : State cfg) :
    (oobError (firstOOB s.base)).addr.toNat = max s.I.toNat 4096 := by
  have hI := s.I.isLt
  exact Nat.mod_eq_of_lt (show max s.I.toNat 4096 < 2 ^ 16 by omega)

/-- Settles O12: the two ways a range over I can end, `exec_outside_takes_oobError` and `exec_inside_keeps_fault`. -/
theorem indexRelativeAccessesAreBoundsChecked : Obligations.IndexRelativeAccessesAreBoundsChecked := by
  unfold Obligations.IndexRelativeAccessesAreBoundsChecked
  intro i s hk
  constructor
  · intro hout
    exact ⟨_, exec_outside_takes_oobError hk hout, rfl, rfl, oobError_firstOOB_base_toNat s, rfl, rfl, rfl⟩
  · exact exec_inside_keeps_fault hk

/-! ### The primitives of one byte -/

/-- `MemRead(a, 1)` above memory. -/
theorem readRange_one_outside (m : Memory) {a : Nat} (h : 4095 < a) : readRange m a 1 = .error (oobError a) := by
  rcases readRange_cases m a 1 with ⟨_, _, hr⟩ | ⟨hin, _⟩
  · rwa [firstOOB, Nat.max_eq_left h] at hr
  · simp only [Config.memSize] at hin
    omega

/-- `MemRead(a, 1)` inside memory. -/
theorem readRange_one_inside (m : Memory) {a : Nat} (h : a ≤ 4095) : readRange m a 1 = .ok [m.get a] := by
  rcases readRange_cases m a 1 with ⟨_, hout, _⟩ | ⟨_, hr⟩
  · simp only [Config.memSize] at hout
    omega
  · exact hr

/-- `MemWrite(a, 1, v)` above memory. -/
theorem writeRange_one_outside (m : Memory) {a : Nat} (v : Byte) (h : 4095 < a) :
    writeRange m a [v] = .error (oobError a) := by
  rcases writeRange_cases m a [v] with ⟨_, _, hw⟩ | ⟨hin, _⟩
  · rwa [firstOOB, Nat.max_eq_left h] at hw
  · simp only [Config.memSize, List.length_singleton] at hin
    omega

/-- `MemWrite(a, 1, v)` inside memory. -/
theorem writeRange_one_inside (m : Memory) {a : Nat} (v : Byte) (h : a ≤ 4095) :
    writeRange m a [v] = .ok (m.set a v) := by
  rcases writeRange_cases m a [v] with ⟨_, hout, _⟩ | ⟨_, hw⟩
  · simp only [Config.memSize, List.length_singleton] at hout
    omega
  · exact hw

/-- Settles O50: one byte is outside or inside memory, and a byte set inside keeps the canonical form. -/
theorem memoryPrimitives : Obligations.MemoryPrimitives := by
  unfold Obligations.MemoryPrimitives
  intro m a v hwf
  constructor
  · intro hout
    exact ⟨readRange_one_outside m hout, writeRange_one_outside m v hout⟩
  · intro hin
    exact ⟨readRange_one_inside m hin, m.set a v, writeRange_one_inside m v hin,
      Memory.wf_set v hwf (Nat.lt_succ_of_le hin), fun b => Memory.get_set a b v hwf⟩

end Sys2Proof.Machine

/-! ### The two bytes of an instruction (30_encoding.md rule R70) -/

namespace Sys2Proof.Machine

/-- The decoder of a byte stream at two bytes or more: `decode` of their big-endian word, and the other bytes handed on. -/
theorem decodeBytes_cons_cons (hi lo : Byte) (rest : List Byte) :
    decodeBytes (hi :: lo :: rest) = (decode (bigEndian hi lo)).map (·, rest) := by
  rw [decodeBytes]
  cases decode (bigEndian hi lo) with
  | ok i => rfl
  | error r => rfl

/-- The decoder of a byte stream answers an instruction exactly when `decode` gives it for the first two bytes, and then
the bytes left over are those after the two. -/
theorem decodeBytes_cons_cons_eq_ok_iff (hi lo : Byte) (rest rest' : List Byte) (i : Instr) :
    decodeBytes (hi :: lo :: rest) = .ok (i, rest') ↔ decode (bigEndian hi lo) = .ok i ∧ rest' = rest := by
  rw [decodeBytes_cons_cons]
  cases decode (bigEndian hi lo) with
  | ok j => simp [Except.map, eq_comm (a := rest)]
  | error r => simp [Except.map]

@[simp] theorem length_encodeBytes (i : Instr) : (encodeBytes i).length = 2 := rfl

/-- Settles O5: the decoder of a byte stream is `decode` of the big-endian word of the first two bytes. -/
theorem instructionIsTwoBytes : Obligations.InstructionIsTwoBytes := by
  unfold Obligations.InstructionIsTwoBytes
  exact ⟨decodeBytes_cons_cons_eq_ok_iff, length_encodeBytes⟩

end Sys2Proof.Machine

/-! ### A fetch and the two errors before an instruction runs (40_step_cycle.md rules R91 and R94) -/

namespace Sys2Proof.Machine

/-- A fetch answers a word exactly when both bytes are inside memory, and then the word has the byte at PC high. -/
theorem fetch_eq_ok_iff {cfg : Params} (s : State cfg) (w : Word) :
    fetch s = .ok w ↔
      s.PC.toNat ≤ 4094 ∧ w = bigEndian (s.mem.get s.PC.toNat) (s.mem.get (s.PC.toNat + 1)) := by
  rcases fetch_cases s with ⟨hpc, hf⟩ | ⟨hpc, hf⟩
  · simp [hf, hpc, eq_comm (a := w)]
  · simp [hf, hpc]

/-- A running engine whose PC leaves no room for two bytes takes the fetch's error, with no word. -/
theorem step_fetch_outside {s : State} (hr : s.runState = .running) (hpc : 4094 < s.PC.toNat) :
    step s = .next (s.takeError 0#16 (oobError (firstOOB s.PC.toNat))) := by
  rcases fetch_cases s with ⟨hle, _⟩ | ⟨_, hf⟩
  · omega
  · exact stepBy_fetch_error hr hf

/-- A running engine that fetches a word outside the decoder's table takes InvalidInstruction, with that word. -/
theorem step_illegal {s : State} {w : Word} (hr : s.runState = .running) (hf : fetch s = .ok w)
    (hw : ∀ i, decode w ≠ .ok i) : step s = .next (s.takeError w invalidInstruction) := by
  cases hd : decode w with
  | ok i => exact absurd hd (hw i)
  | error e => exact stepBy_illegal hr hf hd

/-- The lowest address outside memory from a 16-bit address up is recorded whole: neither it nor `MEM_SIZE` needs a
17th bit. -/
theorem oobError_firstOOB_toNat (a : Word) : (oobError (firstOOB a.toNat)).addr.toNat = max a.toNat 4096 := by
  have ha := a.isLt
  exact Nat.mod_eq_of_lt (show max a.toNat 4096 < 2 ^ 16 by omega)

/-- Settles O8: `fetch_eq_ok_iff` for the word, `step_fetch_outside` for the error above 4094. -/
theorem fetchIsBoundedAndBigEndian : Obligations.FetchIsBoundedAndBigEndian := by
  unfold Obligations.FetchIsBoundedAndBigEndian
  intro s
  constructor
  · exact fetch_eq_ok_iff s
  · intro hr hpc
    exact ⟨_, step_fetch_outside hr hpc, rfl, rfl, rfl, rfl, oobError_firstOOB_toNat s.PC⟩

/-- Settles O9: `step_illegal`, whose error is taken at pc0 with the fetched word. -/
theorem illegalWordRaisesInvalidInstruction : Obligations.IllegalWordRaisesInvalidInstruction := by
  unfold Obligations.IllegalWordRaisesInvalidInstruction
  intro s w hr hf hw
  exact ⟨_, step_illegal hr hf hw, rfl, rfl⟩

end Sys2Proof.Machine

/-! ### Jumps, calls and immediate skips (41_control_flow.md rules R111 to R114) -/

namespace Sys2Proof

theorem decode_formatA_jp (nnn : Addr12) : decode (formatA 0x1#4 nnn) = .ok (.jp nnn) := by
  simp [decode, fieldOp_formatA, fieldNNN_formatA]

theorem decode_formatA_call (nnn : Addr12) : decode (formatA 0x2#4 nnn) = .ok (.call nnn) := by
  simp [decode, fieldOp_formatA, fieldNNN_formatA]

theorem decode_formatXK_seImm (x : Reg) (nn : Byte) : decode (formatXK 0x3#4 x nn) = .ok (.seImm x nn) := by
  simp [decode, fieldOp_formatXK, fieldX_formatXK, fieldNN_formatXK]

theorem decode_formatXK_sneImm (x : Reg) (nn : Byte) : decode (formatXK 0x4#4 x nn) = .ok (.sneImm x nn) := by
  simp [decode, fieldOp_formatXK, fieldX_formatXK, fieldNN_formatXK]

end Sys2Proof

namespace Sys2Proof.Machine

/-- Wherever a transfer left PC: above 4094 the next step faults at the fetch, PC still the address it could not fetch. -/
theorem step_outside_faults {s : State} (hr : s.runState = .running) (hpc : 4094 < s.PC.toNat) :
    ∃ u, step s = .next u ∧ u.fault.kind = .memoryOutOfBounds ∧ u.PC = s.PC :=
  ⟨_, step_fetch_outside hr hpc, rfl, rfl⟩

/-! ### 1nnn -/

/-- A jump to its own address writes PC with the value it holds. -/
theorem exec_jp_self {nnn : Addr12} {s : State} (h : s.PC.toNat = nnn.toNat) : exec (.jp nnn) s = .next s := by
  have hpc : zext16 nnn = s.PC := BitVec.eq_of_toNat_eq ((zext16_toNat nnn).trans h.symm)
  rw [exec_jp, hpc]
  rfl

/-- Settles O27: `exec_jp`, whose target is nnn by `zext16_toNat`; 4095 has no second byte to fetch. -/
theorem jumpLoadsTarget : Obligations.JumpLoadsTarget := by
  unfold Obligations.JumpLoadsTarget
  intro nnn s
  refine ⟨decode_formatA_jp nnn, ⟨_, zext16_toNat nnn, exec_jp nnn s⟩, exec_jp_self, ?_⟩
  intro hr hnnn
  have hpc : 4094 < (s.setPC (zext16 nnn)).PC.toNat := by
    rw [State.setPC_PC, zext16_toNat, hnnn]
    decide
  obtain ⟨u, hu, hkind, _⟩ := step_outside_faults (s := s.setPC (zext16 nnn)) hr hpc
  exact ⟨_, u, exec_jp nnn s, hu, hkind⟩

/-! ### 2nnn -/

/-- A push writes the slot SP names and keeps the others. -/
theorem getElem_pushed_stack {cfg : Params} (s : State cfg) (v : Word) (h : s.SP.val < Config.stackDepth) (k : Fin 16) :
    (s.pushed v h).stack[k] = if k.val = s.SP.val then v else s.stack[k] := by
  simp [Vector.getElem_set, eq_comm (a := k.val)]

/-- A return in a state whose top of stack is what a push just left there: it goes to the pushed address, and SP is where
it was before the push. -/
theorem exec_ret_pushed (s : State) (v a : Word) (h : s.SP.val < Config.stackDepth) :
    ∃ u, exec .ret ((s.pushed v h).setPC a) = .next u ∧ u.PC = v ∧ u.SP = s.SP := by
  have hslot : ((s.pushed v h).setPC a).slot s.SP.val = v := by
    rw [slot_eq _ _ h, State.setPC_stack, State.pushed_stack, Vector.getElem_set_self]
  exact ⟨_, exec_ret_ok _ (Nat.succ_pos _), hslot, rfl⟩

/-- Settles O28: `exec_call_ok` with the slots and the return after it, and `exec_call_error` on the full stack. -/
theorem callPushesReturnAddress : Obligations.CallPushesReturnAddress := by
  unfold Obligations.CallPushesReturnAddress
  intro nnn s
  refine ⟨decode_formatA_call nnn, ?_, ?_⟩
  · intro hsp
    exact ⟨_, exec_call_ok nnn s hsp, rfl, zext16_toNat nnn, rfl, getElem_pushed_stack s _ hsp,
      exec_ret_pushed s _ _ hsp⟩
  · intro hfull
    exact ⟨_, exec_call_error nnn s hfull, rfl, rfl⟩

/-! ### 3xnn and 4xnn -/

/-- A skip instruction moves PC by 4 when its condition holds and by 2 when not. -/
theorem advance_skipIf {cfg : Params} (s : State cfg) (c : Bool) :
    (s.setPC (incPC s.PC)).skipIf c = s.setPC (if c then s.PC + 4#16 else s.PC + 2#16) := by
  cases c with
  | false => rfl
  | true =>
    rw [if_pos rfl, ← incPC_incPC]
    rfl

theorem exec_seImm_eq_setPC (x : Reg) (nn : Byte) (s : State) :
    exec (.seImm x nn) s = .next (s.setPC (if s.reg x = nn then s.PC + 4#16 else s.PC + 2#16)) := by
  rw [exec_seImm, advance_skipIf]
  simp only [beq_iff_eq]

theorem exec_sneImm_eq_setPC (x : Reg) (nn : Byte) (s : State) :
    exec (.sneImm x nn) s = .next (s.setPC (if s.reg x = nn then s.PC + 2#16 else s.PC + 4#16)) := by
  rw [exec_sneImm, advance_skipIf]
  simp only [bne_iff_ne, ne_eq, ite_not]

/-- An immediate skip leaves the run state alone, taken or not. -/
theorem immediateSkip_keeps_runState {x : Reg} {nn : Byte} {s t : State}
    (h : exec (.seImm x nn) s = .next t ∨ exec (.sneImm x nn) s = .next t) : t.runState = s.runState := by
  rcases h with h | h
  · cases (exec_seImm_eq_setPC x nn s).symm.trans h
    rfl
  · cases (exec_sneImm_eq_setPC x nn s).symm.trans h
    rfl

/-- Settles O30: both skips write PC alone, so the engine still runs and the next fetch meets `step_outside_faults`. -/
theorem immediateSkips : Obligations.ImmediateSkips := by
  unfold Obligations.ImmediateSkips
  intro x nn s
  refine ⟨decode_formatXK_seImm x nn, decode_formatXK_sneImm x nn, exec_seImm_eq_setPC x nn s,
    exec_sneImm_eq_setPC x nn s, ?_⟩
  intro t hexec hr hpc
  exact step_outside_faults ((immediateSkip_keeps_runState hexec).trans hr) hpc

end Sys2Proof.Machine

/-! ### Immediate loads and the 8 family (42_alu.md rules R130 to R137) -/

namespace Sys2Proof

theorem decode_formatXK_ldImm (x : Reg) (nn : Byte) : decode (formatXK 0x6#4 x nn) = .ok (.ldImm x nn) := by
  simp [decode, fieldOp_formatXK, fieldX_formatXK, fieldNN_formatXK]

theorem decode_formatXK_addImm (x : Reg) (nn : Byte) : decode (formatXK 0x7#4 x nn) = .ok (.addImm x nn) := by
  simp [decode, fieldOp_formatXK, fieldX_formatXK, fieldNN_formatXK]

/-- A word of the 8 family is selected by its low nibble alone. -/
theorem decode_formatXY_op8 (x y : Reg) (n : BitVec 4) : decode (formatXY 0x8#4 x y n) = decode8 x y n := by
  simp [decode, fieldOp_formatXY, fieldX_formatXY, fieldY_formatXY, fieldN_formatXY]

end Sys2Proof

namespace Sys2Proof.Machine

/-! ### The adder and the flag byte -/

theorem addMod_toNat (a b : Byte) : (addMod a b).toNat = (a.toNat + b.toNat) % 256 := BitVec.toNat_ofNat _ _

/-- Adding 0xFF modulo 256 takes 1 away. -/
theorem addMod_0xFF (a : Byte) : addMod a 0xFF#8 = a - 1#8 := by
  apply BitVec.eq_of_toNat_eq
  rw [addMod_toNat]
  bv_omega

theorem flagByte_decide (p : Prop) [Decidable p] : flagByte (decide p) = if p then 1#8 else 0#8 := by
  simp only [flagByte, decide_eq_true_eq]

/-! ### The write-back of the 8 family -/

namespace State

variable {cfg : Params}

/-- The destination is written last, so it holds the result even where it is VF. -/
@[simp] theorem reg_writeAlu_same (s : State cfg) (x : Reg) (out : AluOut) : (s.writeAlu x out).reg x = out.1 :=
  reg_setReg_same _ x out.1

/-- Where VF is not the destination it ends as the flag, or as it was when the function has none. -/
theorem reg_writeAlu_vF (s : State cfg) {x : Reg} (out : AluOut) (h : x ≠ 15) :
    (s.writeAlu x out).reg 15 = out.2.elim (s.reg 15) flagByte := by
  rw [writeAlu, reg_setReg_other _ _ _ _ h.symm]
  cases out.2 with
  | none => rfl
  | some c => exact reg_setReg_same s vF (flagByte c)

theorem reg_writeAlu_other (s : State cfg) {x r : Reg} (out : AluOut) (hx : r ≠ x) (hvF : r ≠ 15) :
    (s.writeAlu x out).reg r = s.reg r := by
  rw [writeAlu, reg_setReg_other _ _ _ _ hx]
  cases out.2 with
  | none => rfl
  | some c => exact reg_setFlag_other s c r hvF

/-- The write-back reaches the register file alone. -/
theorem writeAlu_eq_with_V (s : State cfg) (x : Reg) (out : AluOut) :
    s.writeAlu x out = { s with V := (s.writeAlu x out).V } := by
  obtain ⟨v, c⟩ := out
  cases c with
  | none => rfl
  | some c => rfl

end State

/-! ### What an instruction that ends in a register write leaves behind -/

/-- An instruction that writes V[x] and no flag: VF is a register like the others. -/
theorem exec_setReg_outcome {i : Instr} {s : State} {x : Reg} {v : Byte}
    (h : exec i s = .next ((s.setPC (incPC s.PC)).setReg x v)) :
    ∃ t, exec i s = .next t ∧ t = { s with PC := s.PC + 2#16, V := t.V } ∧
      t.reg x = v ∧ ∀ r, r ≠ x → t.reg r = s.reg r :=
  ⟨_, h, rfl, State.reg_setReg_same _ x v, fun r hr => State.reg_setReg_other _ x r v hr⟩

/-- An instruction that ends in the write-back of rule R132. -/
theorem exec_writeAlu_outcome {i : Instr} {s : State} {x : Reg} {out : AluOut}
    (h : exec i s = .next ((s.setPC (incPC s.PC)).writeAlu x out)) :
    ∃ t, exec i s = .next t ∧ t = { s with PC := s.PC + 2#16, V := t.V } ∧
      t.reg x = out.1 ∧ (x ≠ 15 → t.reg 15 = out.2.elim (s.reg 15) flagByte) ∧
      ∀ r, r ≠ x → r ≠ 15 → t.reg r = s.reg r :=
  ⟨_, h, State.writeAlu_eq_with_V _ x out, State.reg_writeAlu_same _ x out, State.reg_writeAlu_vF _ out,
    fun _ hx hvF => State.reg_writeAlu_other _ out hx hvF⟩

/-! ### R132: the common order of the 8 family -/

/-- The instructions of the 8 family, each with its ALU function, in the order of their codes. -/
def aluFunctions (x y : Reg) : List (Instr × (Byte → Byte → AluOut)) :=
  [(.ldReg x y, aluCopy), (.orReg x y, aluOr), (.andReg x y, aluAnd), (.xorReg x y, aluXor),
    (.addReg x y, aluAdd), (.sub x y, aluSub Config.subFlagSense), (.shr x y, aluShr Config.shiftSource),
    (.subn x y, aluSubn Config.subFlagSense), (.shl x y, aluShl Config.shiftSource)]

/-- Every instruction of the 8 family writes back what its function makes of the operands the instruction started with. -/
theorem exec_eq_writeAlu (x y : Reg) (s : State) : ∀ p ∈ aluFunctions x y,
    exec p.1 s = .next ((s.setPC (incPC s.PC)).writeAlu x (p.2 (s.reg x) (s.reg y))) := by
  simp only [aluFunctions, List.forall_mem_cons]
  exact ⟨exec_ldReg x y s, exec_orReg x y s, exec_andReg x y s, exec_xorReg x y s, exec_addReg x y s,
    exec_sub x y s, exec_shr x y s, exec_subn x y s, exec_shl x y s, List.forall_mem_nil _⟩

/-- Settles O40: all nine codes end in one write-back, whose flag and result are functions of the operands at the start. -/
theorem flagIsWrittenBeforeDestination : Obligations.FlagIsWrittenBeforeDestination := by
  unfold Obligations.FlagIsWrittenBeforeDestination
  intro x y s i f hmem
  obtain ⟨t, hexec, -, hx, hvF, hother⟩ := exec_writeAlu_outcome (exec_eq_writeAlu x y s (i, f) hmem)
  refine ⟨t, hexec, hx, fun h15 => (hvF h15).trans ?_, hother⟩
  cases (f (s.reg x) (s.reg y)).2 with
  | none => rfl
  | some c => rfl

/-! ### 6xnn and 7xnn -/

/-- Settles O33: 6xnn is a write of V[x], by `exec_ldImm`. -/
theorem immediateLoad : Obligations.ImmediateLoad := by
  unfold Obligations.ImmediateLoad
  intro x nn s
  exact ⟨decode_formatXK_ldImm x nn, exec_setReg_outcome (exec_ldImm x nn s)⟩

/-- Settles O34: 7xnn is a write of V[x] with the adder's result, its carry dropped. -/
theorem immediateAddSetsNoFlag : Obligations.ImmediateAddSetsNoFlag := by
  unfold Obligations.ImmediateAddSetsNoFlag
  intro x nn s
  obtain ⟨t, hexec, hframe, hx, hother⟩ := exec_setReg_outcome (exec_addImm x nn s)
  refine ⟨decode_formatXK_addImm x nn, t, hexec, hframe, ?_, hother, ?_⟩
  · rw [hx, addMod_toNat]
  · rintro rfl
    rw [hx, addMod_0xFF]

/-! ### 8xy0 to 8xy4 -/

/-- Settles O35: the codes 0 to 3 are writes of V[x] alone. -/
theorem copyAndLogicalWriteNoFlag : Obligations.CopyAndLogicalWriteNoFlag := by
  unfold Obligations.CopyAndLogicalWriteNoFlag
  intro x y s
  exact ⟨decode_formatXY_op8 x y 0x0#4, decode_formatXY_op8 x y 0x1#4, decode_formatXY_op8 x y 0x2#4,
    decode_formatXY_op8 x y 0x3#4, exec_setReg_outcome (exec_ldReg x y s), exec_setReg_outcome (exec_orReg x y s),
    exec_setReg_outcome (exec_andReg x y s), exec_setReg_outcome (exec_xorReg x y s)⟩

/-- Settles O36: the write-back of `aluAdd`, whose flag is the carry out of the unbounded sum. -/
theorem addSetsCarry : Obligations.AddSetsCarry := by
  unfold Obligations.AddSetsCarry
  intro x y s
  obtain ⟨t, hexec, hframe, hx, hvF, hother⟩ :=
    exec_writeAlu_outcome (out := aluAdd (s.reg x) (s.reg y)) (exec_addReg x y s)
  refine ⟨decode_formatXY_op8 x y 0x4#4, t, hexec, hframe, ?_, fun h15 => (hvF h15).trans (flagByte_decide _), hother⟩
  rw [hx]
  exact addMod_toNat _ _

end Sys2Proof.Machine

/-! ### The index load and the decimal digits (43_index_memory.md rules R160 and R163) -/

namespace Sys2Proof

theorem decode_formatA_ldI (nnn : Addr12) : decode (formatA 0xA#4 nnn) = .ok (.ldI nnn) := by
  simp [decode, fieldOp_formatA, fieldNNN_formatA]

/-- A word of the F family is selected by its low byte alone. -/
theorem decode_formatXK_opF (x : Reg) (nn : Byte) : decode (formatXK 0xF#4 x nn) = decodeF x nn := by
  simp [decode, fieldOp_formatXK, fieldX_formatXK, fieldNN_formatXK]

end Sys2Proof

namespace Sys2Proof.Machine

/-! ### Annn -/

/-- Settles O42: `exec_ldI`, whose index is nnn by `zext16_toNat`. -/
theorem indexLoad : Obligations.IndexLoad := by
  unfold Obligations.IndexLoad
  intro nnn s
  exact ⟨decode_formatA_ldI nnn, _, zext16_toNat nnn, exec_ldI nnn s⟩

/-! ### Fx33 -/

/-- The hundreds, tens and units of a number below 1000, the numbers whose bytes are `bcdDigits`. -/
def decimalDigits (v : Nat) : List Nat := [v / 100, v / 10 % 10, v % 10]

theorem bcdDigits_eq_map (v : Byte) : bcdDigits v = (decimalDigits v.toNat).map (BitVec.ofNat 8) := rfl

theorem le_nine_of_mem_decimalDigits {v d : Nat} (hv : v < 1000) (hd : d ∈ decimalDigits v) : d ≤ 9 := by
  simp only [decimalDigits, List.mem_cons, List.not_mem_nil, or_false] at hd
  omega

/-- Each digit fits its byte: nothing is lost when the three are made bytes. -/
theorem map_toNat_bcdDigits (v : Byte) : (bcdDigits v).map BitVec.toNat = decimalDigits v.toNat := by
  rw [bcdDigits_eq_map, List.map_map]
  refine (List.map_congr_left fun d hd => ?_).trans (List.map_id _)
  have hv := v.isLt
  have hd9 := le_nine_of_mem_decimalDigits (by omega) hd
  exact Nat.mod_eq_of_lt (show d < 2 ^ 8 by omega)

/-- The byte at `a + j` after the digits of a byte are stored from `a` up. -/
theorem toNat_get_setMany_bcdDigits {m : Memory} {a : Nat} (v : Byte) (hm : m.wf = true) (ha : a + 3 ≤ Config.memSize)
    (j : Nat) (hj : j < 3) :
    ((m.setMany a (bcdDigits v)).get (a + j)).toNat = (decimalDigits v.toNat)[j]'hj := by
  have hlen : j < (bcdDigits v).length := hj
  calc ((m.setMany a (bcdDigits v)).get (a + j)).toNat
      = (bcdDigits v)[j].toNat := by rw [Memory.get_setMany_inside _ hm ha hlen]
    _ = (decimalDigits v.toNat)[j]'hj := by simp only [← map_toNat_bcdDigits, List.getElem_map]

/-- Settles O45: `exec_ldBX_ok` with the three bytes it wrote, and `exec_ldBX_error`, which writes none. -/
theorem decimalDigitsAreStored : Obligations.DecimalDigitsAreStored := by
  unfold Obligations.DecimalDigitsAreStored
  intro x s hwf
  refine ⟨decode_formatXK_opF x 0x33#8, ?_, ?_⟩
  · intro hin
    have hroom : s.base + 3 ≤ Config.memSize := Nat.succ_le_succ hin
    have hdigit := toNat_get_setMany_bcdDigits (s.reg x) hwf hroom
    refine ⟨_, exec_ldBX_ok x s hroom, rfl, hdigit 0 (by decide), hdigit 1 (by decide), hdigit 2 (by decide), ?_, ?_⟩
    · intro j hj
      have hv := (s.reg x).isLt
      exact (hdigit j hj).trans_le (le_nine_of_mem_decimalDigits (by omega) (List.getElem_mem hj))
    · intro a ha
      exact Memory.get_setMany_outside _ _ a _ ha
  · intro hout
    exact ⟨_, exec_ldBX_error x s (Nat.succ_le_succ hout), rfl, oobError_firstOOB_toNat s.I, rfl⟩

end Sys2Proof.Machine

/-! ### Clearing the framebuffer (44_display.md rule R180) -/

namespace Sys2Proof.Machine

/-- Settles O51: `exec_cls` leaves the blank grid, whose pixels `Grid.pixel_blank` reads. -/
theorem clearTurnsEveryPixelOff : Obligations.ClearTurnsEveryPixelOff := by
  unfold Obligations.ClearTurnsEveryPixelOff
  intro s
  have hdecode : decode 0x00E0#16 = .ok .cls := by decide
  exact ⟨hdecode, _, exec_cls s, rfl, Grid.pixel_blank⟩

end Sys2Proof.Machine

/-! ### The timer tick (60_exceptions.md rule R220) -/

namespace Sys2Proof.Machine

/-- The transaction TICK, in any run state. -/
theorem transact_tick (s : State) : transact .tick s = .next (s.tick, .ok) := rfl

@[simp] theorem State.tick_DT (s : State) : s.tick.DT = tickTimer s.DT := rfl

@[simp] theorem State.tick_ST (s : State) : s.tick.ST = tickTimer s.ST := rfl

/-- TICK writes no field but the two timers. -/
theorem State.tick_eq_with_timers (s : State) : s.tick = { s with DT := s.tick.DT, ST := s.tick.ST } := rfl

/-- Settles O57: TICK always answers `s.tick`, whose timers are those of `tickTimer_toNat`. -/
theorem tickDecrementsWithFloor : Obligations.TickDecrementsWithFloor := by
  unfold Obligations.TickDecrementsWithFloor
  intro s
  refine ⟨s.tick, transact_tick s, s.tick_eq_with_timers, ?_, ?_⟩
  · rw [State.tick_DT, tickTimer_toNat]
  · rw [State.tick_ST, tickTimer_toNat]

end Sys2Proof.Machine

/-! ### Decoding the word of an instruction (30_encoding.md sections 1 to 3) -/

namespace Sys2Proof

/-- A word of op 5 is 5xy0, or illegal (D9). -/
theorem decode_formatXY_op5 (x y : Reg) (n : BitVec 4) :
    decode (formatXY 0x5#4 x y n) = if n = 0#4 then .ok (.seReg x y) else .error .op5Unlisted := by
  simp [decode, fieldOp_formatXY, fieldX_formatXY, fieldY_formatXY, fieldN_formatXY]

/-- A word of op 9 is 9xy0, or illegal (D9). -/
theorem decode_formatXY_op9 (x y : Reg) (n : BitVec 4) :
    decode (formatXY 0x9#4 x y n) = if n = 0#4 then .ok (.sneReg x y) else .error .op9Unlisted := by
  simp [decode, fieldOp_formatXY, fieldX_formatXY, fieldY_formatXY, fieldN_formatXY]

theorem decode_formatA_jpV0 (nnn : Addr12) : decode (formatA 0xB#4 nnn) = .ok (.jpV0 nnn) := by
  simp [decode, fieldOp_formatA, fieldNNN_formatA]

theorem decode_formatXK_rnd (x : Reg) (nn : Byte) : decode (formatXK 0xC#4 x nn) = .ok (.rnd x nn) := by
  simp [decode, fieldOp_formatXK, fieldX_formatXK, fieldNN_formatXK]

theorem decode_formatXY_drw (x y : Reg) (n : BitVec 4) :
    decode (formatXY 0xD#4 x y n) = .ok (.drw x y (nibbleIndex n)) := by
  simp [decode, fieldOp_formatXY, fieldX_formatXY, fieldY_formatXY, fieldN_formatXY]

/-- A word of the E family is selected by its low byte alone. -/
theorem decode_formatXK_opE (x : Reg) (nn : Byte) : decode (formatXK 0xE#4 x nn) = decodeE x nn := by
  simp [decode, fieldOp_formatXK, fieldX_formatXK, fieldNN_formatXK]

/-- The word of an instruction decodes to the instruction: format by format, the fields read back as they were written. -/
@[simp] theorem decode_encode (i : Instr) : decode (encode i) = .ok i := by
  cases i
  case cls => decide
  case ret => decide
  case jp nnn => exact decode_formatA_jp nnn
  case call nnn => exact decode_formatA_call nnn
  case ldI nnn => exact decode_formatA_ldI nnn
  case jpV0 nnn => exact decode_formatA_jpV0 nnn
  case seImm x nn => exact decode_formatXK_seImm x nn
  case sneImm x nn => exact decode_formatXK_sneImm x nn
  case ldImm x nn => exact decode_formatXK_ldImm x nn
  case addImm x nn => exact decode_formatXK_addImm x nn
  case rnd x nn => exact decode_formatXK_rnd x nn
  case seReg x y => exact decode_formatXY_op5 x y 0#4
  case sneReg x y => exact decode_formatXY_op9 x y 0#4
  case drw x y n => exact (decode_formatXY_drw x y _).trans (by rw [nibbleIndex_indexNibble])
  case skp x => exact decode_formatXK_opE x 0x9E#8
  case sknp x => exact decode_formatXK_opE x 0xA1#8
  case ldReg x y | orReg x y | andReg x y | xorReg x y | addReg x y | sub x y | shr x y | subn x y | shl x y =>
    exact decode_formatXY_op8 x y _
  all_goals exact decode_formatXK_opF _ _

theorem encode_injective : Function.Injective encode := fun i j h =>
  Except.ok.inj ((decode_encode i).symm.trans ((congrArg decode h).trans (decode_encode j)))

end Sys2Proof

namespace Sys2Proof.Machine

/-- Settles O1: `decode_encode` on the word, which the two bytes put together again are. -/
theorem decodeInvertsEncode : Obligations.DecodeInvertsEncode := by
  unfold Obligations.DecodeInvertsEncode
  intro i
  refine ⟨decode_encode i, fun rest => ?_⟩
  refine (decodeBytes_cons_cons_eq_ok_iff _ _ rest rest i).2 ⟨?_, rfl⟩
  rw [bigEndian_bytes, decode_encode]

end Sys2Proof.Machine

/-! ### Encoding the instruction of a word, and the opcode table (30_encoding.md sections 3 and 4) -/

namespace Sys2Proof

/-- The legal words of op 0 are two whole words. -/
theorem decode_formatA_op0 (nnn : Addr12) :
    decode (formatA 0x0#4 nnn) = if nnn = 0x0E0#12 then .ok .cls else if nnn = 0x0EE#12 then .ok .ret
      else .error .op0Unlisted := by
  have hinj (a : Addr12) : formatA 0x0#4 nnn = formatA 0x0#4 a ↔ nnn = a := by
    refine ⟨fun h => ?_, congrArg _⟩
    rw [← fieldNNN_formatA 0x0#4 nnn, h, fieldNNN_formatA]
  have hcls : formatA 0x0#4 nnn = 0x00E0#16 ↔ nnn = 0x0E0#12 := hinj 0x0E0#12
  have hret : formatA 0x0#4 nnn = 0x00EE#16 ↔ nnn = 0x0EE#12 := hinj 0x0EE#12
  simp only [decode, fieldOp_formatA, if_true, hcls, hret]

/-- A word that some instruction encodes to decodes to no other. -/
theorem encode_eq_of_decode_encode {w : Word} {i j : Instr} (hj : encode j = w) (h : decode w = .ok i) :
    encode i = w := by
  rw [← hj, decode_encode] at h
  cases h
  exact hj

/-- No bit of a legal word is dropped: op by op, the word is put together again from its fields. -/
theorem encode_of_decode {w : Word} {i : Instr} (h : decode w = .ok i) : encode i = w := by
  have hA := formatA_fields w
  have hXK := formatXK_fields w
  have hXY := formatXY_fields w
  rcases nibble_cases (fieldOp w) with
    hop | hop | hop | hop | hop | hop | hop | hop | hop | hop | hop | hop | hop | hop | hop | hop
  all_goals rw [hop] at hA hXK hXY
  · rw [← hA, decode_formatA_op0] at h
    split_ifs at h with hcls hret
    · cases h
      rwa [hcls] at hA
    · cases h
      rwa [hret] at hA
  · exact encode_eq_of_decode_encode (j := .jp _) hA h
  · exact encode_eq_of_decode_encode (j := .call _) hA h
  · exact encode_eq_of_decode_encode (j := .seImm _ _) hXK h
  · exact encode_eq_of_decode_encode (j := .sneImm _ _) hXK h
  · rw [← hXY, decode_formatXY_op5] at h
    split_ifs at h with hn
    cases h
    rwa [hn] at hXY
  · exact encode_eq_of_decode_encode (j := .ldImm _ _) hXK h
  · exact encode_eq_of_decode_encode (j := .addImm _ _) hXK h
  · rw [← hXY, decode_formatXY_op8] at h
    exact (decode8_word h).trans hXY
  · rw [← hXY, decode_formatXY_op9] at h
    split_ifs at h with hn
    cases h
    rwa [hn] at hXY
  · exact encode_eq_of_decode_encode (j := .ldI _) hA h
  · exact encode_eq_of_decode_encode (j := .jpV0 _) hA h
  · exact encode_eq_of_decode_encode (j := .rnd _ _) hXK h
  · rw [← hXY, decode_formatXY_drw] at h
    cases h
    exact (congrArg (formatXY 0xD#4 _ _) (indexNibble_nibbleIndex _)).trans hXY
  · rw [← hXK, decode_formatXK_opE] at h
    exact (decodeE_word h).trans hXK
  · rw [← hXK, decode_formatXK_opF] at h
    exact (decodeF_word h).trans hXK

theorem decode_eq_ok_iff (w : Word) (i : Instr) : decode w = .ok i ↔ encode i = w :=
  ⟨encode_of_decode, fun h => h ▸ decode_encode i⟩


/-! ### The opcode table -/

theorem OpcodeRow.admits_iff (r : OpcodeRow) (w : Word) : r.admits w = true ↔ w &&& r.mask = r.pattern := by
  simp [OpcodeRow.admits]

/-- A row that fixes every bit admits its pattern alone. -/
theorem eq_of_admits_all {w p : Word} {m : String} (h : (OpcodeRow.mk m p 0xFFFF#16).admits w = true) : p = w := by
  have hmask : w &&& BitVec.allOnes 16 = p := (OpcodeRow.admits_iff _ w).1 h
  rw [← hmask, BitVec.and_allOnes]

/-- A row that fixes `op` alone. -/
theorem fieldOp_of_admits {w : Word} {op : BitVec 4} {m : String}
    (h : (OpcodeRow.mk m (formatA op 0#12) 0xF000#16).admits w = true) : fieldOp w = op := by
  have hmask : w &&& 0xF000#16 = formatA op 0#12 := (OpcodeRow.admits_iff _ w).1 h
  rw [← formatA_fields w, formatA_mask] at hmask
  exact (fieldOp_formatA _ 0#12).symm.trans ((congrArg fieldOp hmask).trans (fieldOp_formatA op _))

theorem formatA_of_admits {w : Word} {op : BitVec 4} {m : String}
    (h : (OpcodeRow.mk m (formatA op 0#12) 0xF000#16).admits w = true) : formatA op (fieldNNN w) = w :=
  fieldOp_of_admits h ▸ formatA_fields w

theorem formatXK_of_admits {w : Word} {op : BitVec 4} {m : String}
    (h : (OpcodeRow.mk m (formatA op 0#12) 0xF000#16).admits w = true) :
    formatXK op (nibbleIndex (fieldX w)) (fieldNN w) = w :=
  fieldOp_of_admits h ▸ formatXK_fields w

theorem formatXYN_of_admits {w : Word} {op : BitVec 4} {m : String}
    (h : (OpcodeRow.mk m (formatA op 0#12) 0xF000#16).admits w = true) :
    formatXY op (nibbleIndex (fieldX w)) (nibbleIndex (fieldY w)) (indexNibble (nibbleIndex (fieldN w))) = w := by
  rw [indexNibble_nibbleIndex]
  exact fieldOp_of_admits h ▸ formatXY_fields w

/-- A row that fixes `op` and the low byte. -/
theorem formatXS_of_admits {w : Word} {op : BitVec 4} {nn : Byte} {m : String}
    (h : (OpcodeRow.mk m (formatXK op 0 nn) 0xF0FF#16).admits w = true) :
    formatXK op (nibbleIndex (fieldX w)) nn = w := by
  have hmask : w &&& 0xF0FF#16 = formatXK op 0 nn := (OpcodeRow.admits_iff _ w).1 h
  rw [← formatXK_fields w, formatXK_mask_sub] at hmask
  have hop : fieldOp w = op :=
    (fieldOp_formatXK _ 0 _).symm.trans ((congrArg fieldOp hmask).trans (fieldOp_formatXK op 0 nn))
  have hnn : fieldNN w = nn :=
    (fieldNN_formatXK _ 0 _).symm.trans ((congrArg fieldNN hmask).trans (fieldNN_formatXK op 0 nn))
  exact hop ▸ hnn ▸ formatXK_fields w

/-- A row that fixes `op` and the low nibble. -/
theorem formatXY_of_admits {w : Word} {op n : BitVec 4} {m : String}
    (h : (OpcodeRow.mk m (formatXY op 0 0 n) 0xF00F#16).admits w = true) :
    formatXY op (nibbleIndex (fieldX w)) (nibbleIndex (fieldY w)) n = w := by
  have hmask : w &&& 0xF00F#16 = formatXY op 0 0 n := (OpcodeRow.admits_iff _ w).1 h
  rw [← formatXY_fields w, formatXY_mask_sub] at hmask
  have hop : fieldOp w = op :=
    (fieldOp_formatXY _ 0 0 _).symm.trans ((congrArg fieldOp hmask).trans (fieldOp_formatXY op 0 0 n))
  have hn : fieldN w = n :=
    (fieldN_formatXY _ 0 0 _).symm.trans ((congrArg fieldN hmask).trans (fieldN_formatXY op 0 0 n))
  exact hop ▸ hn ▸ formatXY_fields w

/-- A row admits no word but those of its own instructions: each row's free bits are the operands. -/
theorem exists_instr_of_admits {w : Word} :
    ∀ r ∈ opcodeTable, r.admits w = true → ∃ i : Instr, i.row = r ∧ encode i = w := by
  simp only [opcodeTable, List.cons_append, List.nil_append, List.forall_mem_cons]
  exact ⟨
    fun h => ⟨.cls, rfl, eq_of_admits_all h⟩,
    fun h => ⟨.ret, rfl, eq_of_admits_all h⟩,
    fun h => ⟨.jp _, rfl, formatA_of_admits h⟩,
    fun h => ⟨.call _, rfl, formatA_of_admits h⟩,
    fun h => ⟨.seImm _ _, rfl, formatXK_of_admits h⟩,
    fun h => ⟨.sneImm _ _, rfl, formatXK_of_admits h⟩,
    fun h => ⟨.seReg _ _, rfl, formatXY_of_admits h⟩,
    fun h => ⟨.ldImm _ _, rfl, formatXK_of_admits h⟩,
    fun h => ⟨.addImm _ _, rfl, formatXK_of_admits h⟩,
    fun h => ⟨.ldReg _ _, rfl, formatXY_of_admits h⟩,
    fun h => ⟨.orReg _ _, rfl, formatXY_of_admits h⟩,
    fun h => ⟨.andReg _ _, rfl, formatXY_of_admits h⟩,
    fun h => ⟨.xorReg _ _, rfl, formatXY_of_admits h⟩,
    fun h => ⟨.addReg _ _, rfl, formatXY_of_admits h⟩,
    fun h => ⟨.sub _ _, rfl, formatXY_of_admits h⟩,
    fun h => ⟨.shr _ _, rfl, formatXY_of_admits h⟩,
    fun h => ⟨.subn _ _, rfl, formatXY_of_admits h⟩,
    fun h => ⟨.shl _ _, rfl, formatXY_of_admits h⟩,
    fun h => ⟨.sneReg _ _, rfl, formatXY_of_admits h⟩,
    fun h => ⟨.ldI _, rfl, formatA_of_admits h⟩,
    fun h => ⟨.jpV0 _, rfl, formatA_of_admits h⟩,
    fun h => ⟨.rnd _ _, rfl, formatXK_of_admits h⟩,
    fun h => ⟨.drw _ _ _, rfl, formatXYN_of_admits h⟩,
    fun h => ⟨.skp _, rfl, formatXS_of_admits h⟩,
    fun h => ⟨.sknp _, rfl, formatXS_of_admits h⟩,
    fun h => ⟨.ldXDT _, rfl, formatXS_of_admits h⟩,
    fun h => ⟨.ldXK _, rfl, formatXS_of_admits h⟩,
    fun h => ⟨.ldDTX _, rfl, formatXS_of_admits h⟩,
    fun h => ⟨.ldSTX _, rfl, formatXS_of_admits h⟩,
    fun h => ⟨.addIX _, rfl, formatXS_of_admits h⟩,
    fun h => ⟨.ldFX _, rfl, formatXS_of_admits h⟩,
    fun h => ⟨.ldBX _, rfl, formatXS_of_admits h⟩,
    fun h => ⟨.ldMemX _, rfl, formatXS_of_admits h⟩,
    fun h => ⟨.ldXMem _, rfl, formatXS_of_admits h⟩,
    List.forall_mem_nil _⟩

/-- Every instruction has its row in the table, and the row admits the instruction's word. -/
theorem ownTableRow : ∀ i : Instr, Laws.OwnTableRow.Statement i
  | .cls => Laws.OwnTableRow.cls
  | .ret => Laws.OwnTableRow.ret
  | .jp nnn => Laws.OwnTableRow.jp nnn
  | .call nnn => Laws.OwnTableRow.call nnn
  | .seImm x nn => Laws.OwnTableRow.seImm x nn
  | .sneImm x nn => Laws.OwnTableRow.sneImm x nn
  | .seReg x y => Laws.OwnTableRow.seReg x y
  | .ldImm x nn => Laws.OwnTableRow.ldImm x nn
  | .addImm x nn => Laws.OwnTableRow.addImm x nn
  | .ldReg x y => Laws.OwnTableRow.ldReg x y
  | .orReg x y => Laws.OwnTableRow.orReg x y
  | .andReg x y => Laws.OwnTableRow.andReg x y
  | .xorReg x y => Laws.OwnTableRow.xorReg x y
  | .addReg x y => Laws.OwnTableRow.addReg x y
  | .sub x y => Laws.OwnTableRow.sub x y
  | .shr x y => Laws.OwnTableRow.shr x y
  | .subn x y => Laws.OwnTableRow.subn x y
  | .shl x y => Laws.OwnTableRow.shl x y
  | .sneReg x y => Laws.OwnTableRow.sneReg x y
  | .ldI nnn => Laws.OwnTableRow.ldI nnn
  | .jpV0 nnn => Laws.OwnTableRow.jpV0 nnn
  | .rnd x nn => Laws.OwnTableRow.rnd x nn
  | .drw x y n => Laws.OwnTableRow.drw x y n
  | .skp x => Laws.OwnTableRow.skp x
  | .sknp x => Laws.OwnTableRow.sknp x
  | .ldXDT x => Laws.OwnTableRow.ldXDT x
  | .ldXK x => Laws.OwnTableRow.ldXK x
  | .ldDTX x => Laws.OwnTableRow.ldDTX x
  | .ldSTX x => Laws.OwnTableRow.ldSTX x
  | .addIX x => Laws.OwnTableRow.addIX x
  | .ldFX x => Laws.OwnTableRow.ldFX x
  | .ldBX x => Laws.OwnTableRow.ldBX x
  | .ldMemX x => Laws.OwnTableRow.ldMemX x
  | .ldXMem x => Laws.OwnTableRow.ldXMem x

/-- The table's legal words are the words of instructions. -/
theorem wordLegal_iff_exists_encode (w : Word) : wordLegal w = true ↔ ∃ i, encode i = w := by
  rw [wordLegal, List.any_eq_true]
  constructor
  · rintro ⟨r, hr, hw⟩
    obtain ⟨i, -, hi⟩ := exists_instr_of_admits r hr hw
    exact ⟨i, hi⟩
  · rintro ⟨i, rfl⟩
    exact ⟨i.row, ownTableRow i⟩

/-- Rows that match one word are one row: the word has one instruction, and an instruction has one row. -/
theorem row_eq_of_admits {w : Word} {r₁ r₂ : OpcodeRow} (h₁ : r₁ ∈ opcodeTable) (h₂ : r₂ ∈ opcodeTable)
    (hw₁ : r₁.admits w = true) (hw₂ : r₂.admits w = true) : r₁ = r₂ := by
  obtain ⟨i, rfl, hi⟩ := exists_instr_of_admits r₁ h₁ hw₁
  obtain ⟨j, rfl, hj⟩ := exists_instr_of_admits r₂ h₂ hw₂
  rw [encode_injective (hi.trans hj.symm)]

/-! ### Illegal words, class by class (30_encoding.md section 4) -/

/-- The low nibbles that select an instruction of the 8 family. -/
def selectors8 : List (BitVec 4) := [0x0#4, 0x1#4, 0x2#4, 0x3#4, 0x4#4, 0x5#4, 0x6#4, 0x7#4, 0xE#4]

/-- The low bytes that select an instruction of the E family. -/
def selectorsE : List Byte := [0x9E#8, 0xA1#8]

/-- The low bytes that select an instruction of the F family. -/
def selectorsF : List Byte := [0x07#8, 0x0A#8, 0x15#8, 0x18#8, 0x1E#8, 0x29#8, 0x33#8, 0x55#8, 0x65#8]

theorem isOk_decode8 (x y : Reg) (n : BitVec 4) : (decode8 x y n).isOk = decide (n ∈ selectors8) := by
  unfold decode8
  split_ifs <;> simp_all [Except.isOk, Except.toBool, selectors8]

theorem isOk_decodeE (x : Reg) (nn : Byte) : (decodeE x nn).isOk = decide (nn ∈ selectorsE) := by
  unfold decodeE
  split_ifs <;> simp_all [Except.isOk, Except.toBool, selectorsE]

theorem isOk_decodeF (x : Reg) (nn : Byte) : (decodeF x nn).isOk = decide (nn ∈ selectorsF) := by
  unfold decodeF
  split_ifs <;> simp_all [Except.isOk, Except.toBool, selectorsF]

theorem isOk_ite_error {α : Type} (p : Prop) [Decidable p] (a : α) (e : Reject) :
    (if p then Except.ok a else Except.error e : Except Reject α).isOk = decide p := by
  split_ifs with h <;> simp [Except.isOk, Except.toBool, h]

theorem illegal_opE (x : Reg) :
    ((List.range 256).countP fun nn => !(decode (formatXK 0xE#4 x (BitVec.ofNat 8 nn))).isOk) = 254 := by
  simp only [decode_formatXK_opE, isOk_decodeE]
  decide +kernel

theorem illegal_opF (x : Reg) :
    ((List.range 256).countP fun nn => !(decode (formatXK 0xF#4 x (BitVec.ofNat 8 nn))).isOk) = 247 := by
  simp only [decode_formatXK_opF, isOk_decodeF]
  decide +kernel

theorem illegal_op8 (x y : Reg) :
    ((List.range 16).countP fun n => !(decode (formatXY 0x8#4 x y (BitVec.ofNat 4 n))).isOk) = 7 := by
  simp only [decode_formatXY_op8, isOk_decode8]
  decide

theorem illegal_op5 (x y : Reg) :
    ((List.range 16).countP fun n => !(decode (formatXY 0x5#4 x y (BitVec.ofNat 4 n))).isOk) = 15 := by
  simp only [decode_formatXY_op5, isOk_ite_error]
  decide

theorem illegal_op9 (x y : Reg) :
    ((List.range 16).countP fun n => !(decode (formatXY 0x9#4 x y (BitVec.ofNat 4 n))).isOk) = 15 := by
  simp only [decode_formatXY_op9, isOk_ite_error]
  decide

theorem legal_op0_iff (nnn : Addr12) :
    (decode (formatA 0x0#4 nnn)).isOk = true ↔ nnn = 0x0E0#12 ∨ nnn = 0x0EE#12 := by
  rw [decode_formatA_op0]
  split_ifs with hcls hret <;> simp [Except.isOk, Except.toBool, *]

end Sys2Proof

namespace Sys2Proof.Machine

/-- Settles O2: `encode_of_decode`. -/
theorem encodeInvertsDecode : Obligations.EncodeInvertsDecode := by
  unfold Obligations.EncodeInvertsDecode
  intro w i
  exact encode_of_decode

/-- Settles O3: decoder and table both accept exactly the words of instructions, and an instruction has one row. -/
theorem decodeAcceptsExactlyTheTable : Obligations.DecodeAcceptsExactlyTheTable := by
  unfold Obligations.DecodeAcceptsExactlyTheTable
  intro w
  constructor
  · rw [wordLegal_iff_exists_encode]
    exact exists_congr (decode_eq_ok_iff w)
  · intro r₁ h₁ r₂ h₂
    exact row_eq_of_admits h₁ h₂

/-- Settles O4: op by op, the words whose selector is not in the op's list. -/
theorem illegalWordsPerClass : Obligations.IllegalWordsPerClass := by
  unfold Obligations.IllegalWordsPerClass
  refine ⟨fun x => ?_, fun x y => ?_, legal_op0_iff⟩
  · rw [← indexNibble_nibbleIndex x]
    exact ⟨illegal_opE _, illegal_opF _⟩
  · rw [← indexNibble_nibbleIndex x, ← indexNibble_nibbleIndex y]
    exact ⟨illegal_op8 _ _, illegal_op5 _ _, illegal_op9 _ _⟩

/-- Settles O6: each word written out is read by `decode`. -/
theorem writtenOutWordsDecode : Obligations.WrittenOutWordsDecode := by
  unfold Obligations.WrittenOutWordsDecode
  decide

end Sys2Proof.Machine

/-! ### What an instruction leaves of the state (10_state.md section 5; 40_step_cycle.md section 2) -/

namespace Sys2Proof.Machine

/-- The errors a step of `s` takes, each with the word it records: the cause is there to be seen in the state
(60_exceptions.md section 1). -/
inductive ErrorShown (s : State) : Word → Raised → Prop where
  | overflow (nnn : Addr12) : s.SP.val = 16 → ErrorShown s (encode (.call nnn)) ⟨.stackOverflow, 0#16⟩
  | underflow : s.SP.val = 0 → ErrorShown s (encode .ret) ⟨.stackUnderflow, 0#16⟩
  | outside (w a : Word) : ErrorShown s w (oobError (firstOOB a.toNat))
  | illegal (w : Word) : (∀ i, decode w ≠ .ok i) → ErrorShown s w invalidInstruction

theorem ErrorShown.kind_ne_none {s : State} {w : Word} {e : Raised} (h : ErrorShown s w e) : e.kind ≠ .none := by
  cases h <;> exact FaultKind.noConfusion

namespace Effect

variable {i : Instr} {s t : State}

/-- An instruction takes an error whose cause its state shows, or raises none: it then keeps the fault record, and the
engine is as it was or waits for a key. -/
theorem error_or_keeps (h : Effect i s t) :
    (∃ e, ErrorShown s (encode i) e ∧ t = s.takeError (encode i) e) ∨
    (t.fault = s.fault ∧ (t.runState = s.runState ∨ t.runState = .awaitKey)) := by
  cases h with
  | overflow nnn hi hsp => exact .inl ⟨_, hi ▸ .overflow nnn hsp, rfl⟩
  | underflow hi hsp => exact .inl ⟨_, hi ▸ .underflow hsp, rfl⟩
  | outside => exact .inl ⟨_, .outside _ s.I, rfl⟩
  | wait => exact .inr ⟨rfl, .inr rfl⟩
  | _ => exact .inr ⟨rfl, .inl rfl⟩

/-- An instruction that starts while the engine runs ends the run in a wait only as Fx0A with no key latched. -/
theorem wait_of_awaitKey (h : Effect i s t) (hs : s.runState = .running) (ht : t.runState = .awaitKey) :
    ∃ x, i = .ldXK x ∧ s.keyValid = false := by
  cases h with
  | wait x hi hk => exact ⟨x, hi, hk⟩
  | overflow | underflow | outside => cases ht
  | _ => cases hs.symm.trans ht

/-! ### Field by field -/

theorem keeps_reg (h : Effect i s t) {r : Reg} (hr : i.mayWriteReg r = false) : t.reg r = s.reg r := by
  have hne {x : Reg} (hx : i.mayWriteReg x = true) : r ≠ x := fun he => by simp [he, hx] at hr
  cases h with
  | write x v _ hx => exact State.reg_setReg_other _ x r v (hne hx)
  | flagged x v c _ hx hF =>
    exact (State.reg_setReg_other _ x r v (hne hx)).trans (State.reg_setFlag_other _ c r (hne hF))
  | random x nn v hi => exact State.reg_setReg_other _ x r v (hne (by simp [hi, Instr.mayWriteReg]))
  | draw x y n g c hi => exact State.reg_setFlag_other _ c r (hne (by simp [hi, Instr.mayWriteReg]))
  | load x bs hi hbs =>
    have hx : ¬ r ≤ x := by simpa [hi, Instr.mayWriteReg] using hr
    have hlen : ¬ (0 ≤ r.val ∧ r.val - 0 < bs.length) := by rw [Fin.le_def] at hx; omega
    exact (getElem_fillRegs _ 0 bs r).trans (dif_neg hlen)
  | _ => rfl

theorem get_mem_outside (h : Effect i s t) {a : Nat} (ha : a < s.base ∨ s.base + i.storedBytes ≤ a) :
    t.mem.get a = s.mem.get a := by
  cases h with
  | store bs _ hbs => exact Memory.get_setMany_outside _ _ a bs (hbs ▸ ha)
  | _ => rfl

theorem mem_wf (h : Effect i s t) (hm : s.mem.wf = true) : t.mem.wf = true := by
  cases h with
  | store bs _ _ hroom => exact Memory.wf_setMany bs hm hroom
  | _ => exact hm

theorem keeps_I_or (h : Effect i s t) :
    t.I = s.I ∨ (∃ nnn, i = .ldI nnn) ∨ (∃ x, i = .addIX x) ∨ (∃ x, i = .ldFX x) := by
  cases h with
  | index v hi => exact .inr hi
  | _ => exact .inl rfl

theorem keeps_SP_or (h : Effect i s t) : t.SP = s.SP ∨ i = .ret ∨ ∃ nnn, i = .call nnn := by
  cases h with
  | ret hi => exact .inr (.inl hi)
  | call nnn _ hi => exact .inr (.inr ⟨nnn, hi⟩)
  | _ => exact .inl rfl

theorem keeps_slot_or (h : Effect i s t) (k : Fin 16) :
    t.stack[k] = s.stack[k] ∨ k.val = s.SP.val ∧ ∃ nnn, i = .call nnn := by
  cases h with
  | call nnn hsp hi =>
    by_cases hk : k.val = s.SP.val
    · exact .inr ⟨hk, nnn, hi⟩
    · exact .inl ((getElem_pushed_stack s _ hsp k).trans (if_neg hk))
  | _ => exact .inl rfl

theorem keeps_DT_or (h : Effect i s t) : t.DT = s.DT ∨ ∃ x, i = .ldDTX x := by
  cases h with
  | delay x hi => exact .inr ⟨x, hi⟩
  | _ => exact .inl rfl

theorem keeps_ST_or (h : Effect i s t) : t.ST = s.ST ∨ ∃ x, i = .ldSTX x := by
  cases h with
  | sound x hi => exact .inr ⟨x, hi⟩
  | _ => exact .inl rfl

theorem keeps_fb_or (h : Effect i s t) : t.fb = s.fb ∨ i = .cls ∨ ∃ x y n, i = .drw x y n := by
  cases h with
  | clear _ hi => exact .inr (.inl hi)
  | draw x y n _ _ hi => exact .inr (.inr ⟨x, y, n, hi⟩)
  | _ => exact .inl rfl

theorem keeps_keyValid (h : Effect i s t) : t.keyValid = s.keyValid := by
  cases h <;> rfl

theorem keeps_keyValue (h : Effect i s t) : t.keyValue = s.keyValue := by
  cases h <;> rfl

theorem keeps_fontBase (h : Effect i s t) : t.fontBase = s.fontBase := by
  cases h <;> rfl

theorem keeps_waitX_or (h : Effect i s t) : t.waitX = s.waitX ∨ ∃ x, i = .ldXK x := by
  cases h with
  | wait x hi => exact .inr ⟨x, hi⟩
  | _ => exact .inl rfl

theorem keeps_draws_or (h : Effect i s t) : t.draws = s.draws ∨ ∃ x nn, i = .rnd x nn := by
  cases h with
  | random x nn _ hi => exact .inr ⟨x, nn, hi⟩
  | _ => exact .inl rfl

/-- PC after an instruction that is no transfer: the fetch advance, taken back by an error. -/
theorem PC_of_not_transfer (h : Effect i s t) (hi : i.isTransfer = false) (hs : s.runState = .running) :
    t.PC = if t.runState = .faulted then s.PC else s.PC + 2#16 := by
  have hrun : s.runState ≠ .faulted := by rw [hs]; decide
  cases h with
  | overflow | underflow | outside => exact (if_pos rfl).symm
  | ret he | call _ _ he => rw [he] at hi; cases hi
  | transfer _ he => rw [he] at hi; cases hi
  | wait => exact (if_neg nofun).symm
  | _ => exact (if_neg hrun).symm

end Effect

/-- Settles O21: `Effect.keeps_reg`. -/
theorem otherRegistersAreUnchanged : Obligations.OtherRegistersAreUnchanged := by
  unfold Obligations.OtherRegistersAreUnchanged
  intro i s t hexec r hr
  exact (effect_of_exec hexec).keeps_reg hr

/-- Settles O22: `Effect.get_mem_outside`. -/
theorem otherMemoryIsUnchanged : Obligations.OtherMemoryIsUnchanged := by
  unfold Obligations.OtherMemoryIsUnchanged
  intro i s t hexec a ha
  exact (effect_of_exec hexec).get_mem_outside ha

/-- Settles O23: the frame of each field, by the effects that write it. -/
theorem otherStateIsUnchanged : Obligations.OtherStateIsUnchanged := by
  unfold Obligations.OtherStateIsUnchanged
  intro i s t hexec
  have he := effect_of_exec hexec
  exact ⟨he.keeps_I_or.resolve_left, he.keeps_SP_or.resolve_left, fun k => (he.keeps_slot_or k).resolve_left,
    he.keeps_DT_or.resolve_left, he.keeps_ST_or.resolve_left, he.keeps_fb_or.resolve_left, he.keeps_keyValid,
    he.keeps_keyValue, he.keeps_fontBase, he.keeps_waitX_or.resolve_left, he.keeps_draws_or.resolve_left⟩

/-- Settles O24: `Effect.PC_of_not_transfer`. -/
theorem sequentialInstructionsAdvanceByTwo : Obligations.SequentialInstructionsAdvanceByTwo := by
  unfold Obligations.SequentialInstructionsAdvanceByTwo
  intro i s t hi hs hexec
  exact (effect_of_exec hexec).PC_of_not_transfer hi hs

end Sys2Proof.Machine

/-! ### Errors (40_step_cycle.md section 1; 60_exceptions.md sections 1 and 2) -/

namespace Sys2Proof.Machine

/-! ### Which instruction raises which error -/

theorem raises_of_touched {i : Instr} (h : 0 < i.touchedBytes) (s : State) :
    i.raises s = Instr.rangeError s i.touchedBytes := by
  rcases indexRelative_cases h with ⟨x, y, n, rfl⟩ | ⟨x, rfl⟩ | ⟨x, rfl⟩ | ⟨x, rfl⟩ <;> rfl

theorem rangeError_cases (s : State) (k : Nat) :
    (Config.memSize < s.base + k ∧ Instr.rangeError s k = some (.memoryOutOfBounds, firstOOB s.base)) ∨
    Instr.rangeError s k = none := by
  by_cases h : k = 0 ∨ s.I.toNat + k ≤ 4096
  · exact .inr (if_pos h)
  · exact .inl ⟨not_le.1 (not_or.1 h).2, if_neg h⟩

/-- The error of a range over I is taken by the instruction that touches the range. -/
theorem exec_of_rangeError {i : Instr} {s : State} {kind : FaultKind} {addr : Nat}
    (h : Instr.rangeError s i.touchedBytes = some (kind, addr)) :
    exec i s = .next (s.takeError (encode i) ⟨kind, BitVec.ofNat 16 addr⟩) := by
  have hk : 0 < i.touchedBytes := Nat.pos_of_ne_zero fun h0 => by simp [Instr.rangeError, h0] at h
  rcases rangeError_cases s i.touchedBytes with ⟨hout, he⟩ | hn
  · cases he.symm.trans h
    exact exec_outside_takes_oobError hk hout
  · cases hn.symm.trans h

/-- Where the table names an error, the instruction takes it, with its own word. -/
theorem exec_of_raises {i : Instr} {s : State} {kind : FaultKind} {addr : Nat} (h : i.raises s = some (kind, addr)) :
    exec i s = .next (s.takeError (encode i) ⟨kind, BitVec.ofNat 16 addr⟩) := by
  cases i
  case call nnn =>
    obtain ⟨hsp, hp⟩ := Option.ite_none_right_eq_some.1 h
    cases hp
    exact exec_call_error nnn s hsp
  case ret =>
    obtain ⟨hsp, hp⟩ := Option.ite_none_right_eq_some.1 h
    cases hp
    exact exec_ret_error s hsp
  case drw x y n => exact exec_of_rangeError (i := .drw x y n) h
  case ldBX x => exact exec_of_rangeError (i := .ldBX x) h
  case ldMemX x => exact exec_of_rangeError (i := .ldMemX x) h
  case ldXMem x => exact exec_of_rangeError (i := .ldXMem x) h
  all_goals cases h

/-- Where the table names no error, the instruction takes none. -/
theorem Effect.keeps_fault {i : Instr} {s t : State} (h : Effect i s t) (hn : i.raises s = none) :
    t.fault = s.fault ∧ (t.runState = .faulted → s.runState = .faulted) := by
  cases h with
  | overflow nnn hi hsp => cases hi; exact absurd ((if_pos hsp).symm.trans hn) nofun
  | underflow hi hsp => cases hi; exact absurd ((if_pos hsp).symm.trans hn) nofun
  | outside hk hout =>
    rw [raises_of_touched hk] at hn
    exact absurd ((if_neg (show ¬ (_ = 0 ∨ s.base + _ ≤ 4096) by omega)).symm.trans hn) nofun
  | wait => exact ⟨rfl, nofun⟩
  | _ => exact ⟨rfl, id⟩

/-- Settles O11: `exec_of_raises` where the table names an error, `Effect.keeps_fault` where it names none. -/
theorem onlyTabulatedErrorsAreRaised : Obligations.OnlyTabulatedErrorsAreRaised := by
  unfold Obligations.OnlyTabulatedErrorsAreRaised
  intro i s
  cases h : i.raises s with
  | some p => exact exec_of_raises h
  | none =>
    obtain ⟨t, hexec, he⟩ := exec_effect i s
    exact ⟨t, hexec, he.keeps_fault h⟩

/-! ### What a step of a running engine does to the fault record and the run state -/

/-- A step takes an error whose cause its state shows, or keeps the fault record and what the invariant says of memory and
the font, and does not fault. -/
theorem step_error_or_keeps {s t : State} (hs : s.runState = .running) (h : step s = .next t) :
    (∃ w e, ErrorShown s w e ∧ t = s.takeError w e) ∨
    (t.fault = s.fault ∧ t.runState ≠ .faulted ∧ (s.mem.wf = true → t.mem.wf = true) ∧ t.fontBase = s.fontBase) := by
  rcases step_effect h with ⟨hf, _⟩ | ⟨hw, _⟩ | ⟨_, _, rfl⟩ | ⟨w, _, _, hill, rfl⟩ | ⟨w, i, _, _, _, he⟩
  · cases hs.symm.trans hf
  · cases hs.symm.trans hw
  · exact .inl ⟨_, _, .outside 0#16 s.PC, rfl⟩
  · exact .inl ⟨_, _, .illegal w hill, rfl⟩
  · rcases he.error_or_keeps with ⟨e, hshown, rfl⟩ | ⟨hfault, hrun⟩
    · exact .inl ⟨_, e, hshown, rfl⟩
    · refine .inr ⟨hfault, ?_, he.mem_wf, he.keeps_fontBase⟩
      rcases hrun with hrun | hrun
      · rw [hrun, hs]; decide
      · rw [hrun]; decide

/-- Settles O10: a step that ends FAULTED took an error, in the state it started from. -/
theorem errorsArePrecise : Obligations.ErrorsArePrecise := by
  unfold Obligations.ErrorsArePrecise
  intro s t hs hstep ht
  rcases step_error_or_keeps hs hstep with ⟨w, e, hshown, rfl⟩ | ⟨_, hrun, _⟩
  · exact ⟨rfl, rfl, hshown.kind_ne_none⟩
  · exact absurd ht hrun

/-! ### The key wait -/

theorem stepResult_eq_awaitingKey_iff {cfg : Params} (s : State cfg) :
    s.stepResult = .awaitingKey ↔ s.runState = .awaitKey := by
  unfold State.stepResult
  cases s.runState <;> simp

/-- A running engine that fetches the word of an instruction runs it. -/
theorem step_of_fetch_encode {s : State} {i : Instr} (hs : s.runState = .running) (hf : fetch s = .ok (encode i)) :
    step s = exec i s :=
  stepBy_decoded hs hf (decode_encode i)

/-- Settles O14: no error and no effect but `Effect.wait` ends in AWAIT_KEY. -/
theorem onlyKeyWaitInstructionAwaits : Obligations.OnlyKeyWaitInstructionAwaits := by
  unfold Obligations.OnlyKeyWaitInstructionAwaits
  intro s t hs hstep
  rw [stepResult_eq_awaitingKey_iff]
  constructor
  · intro ht
    rcases step_effect hstep with ⟨hf, _⟩ | ⟨hw, _⟩ | ⟨_, _, rfl⟩ | ⟨w, _, _, _, rfl⟩ | ⟨w, i, _, hfetch, hdec, he⟩
    · cases hs.symm.trans hf
    · cases hs.symm.trans hw
    · cases ht
    · cases ht
    · obtain ⟨x, rfl, hkey⟩ := he.wait_of_awaitKey hs ht
      exact ⟨x, by rw [hfetch, encode_of_decode hdec], hkey⟩
  · rintro ⟨x, hfetch, hkey⟩
    rw [step_of_fetch_encode hs hfetch, exec_ldXK_none x s hkey] at hstep
    cases hstep
    rfl

end Sys2Proof.Machine

/-! ### The invariant (10_state.md section 4; 60_exceptions.md section 2) -/

namespace Sys2Proof.Machine

namespace State.Inv

variable {s : State}

/-- While the engine is not FAULTED, the record is clear, so the invariant says no more than that and the two bounds. -/
theorem of_not_faulted (hmem : s.mem.wf = true) (hfont : s.fontBase.toNat ≤ 4016) (hrun : s.runState ≠ .faulted)
    (hclear : s.fault = FaultRecord.clear) : s.Inv := by
  have hkind : s.fault.kind = .none := congrArg FaultRecord.kind hclear
  have hno {k : FaultKind} {p : Prop} (hk : k ≠ .none) (h : s.fault.kind = k) : p := absurd (h.symm.trans hkind) hk
  exact {
    memCanonical := hmem
    fontInside := hfont
    faultedIff := iff_of_false hrun (not_not.2 hkind)
    clearRecord := fun _ => hclear
    faultAtPC := fun h => absurd h hrun
    addrOnlyForMemory := fun _ => congrArg FaultRecord.addr hclear
    addrOutside := hno nofun
    overflowFull := hno nofun
    underflowEmpty := hno nofun
    illegalWord := hno nofun }

theorem clear_of_not_faulted (h : s.Inv) (hrun : s.runState ≠ .faulted) : s.fault = FaultRecord.clear :=
  h.clearRecord (not_not.1 fun hkind => hrun (h.faultedIff.2 hkind))

/-- The record an error leaves is the one the invariant asks for: the cause it names is shown by the state. -/
theorem takeError (h : s.Inv) {w : Word} {e : Raised} (hshown : ErrorShown s w e) : (s.takeError w e).Inv where
  memCanonical := h.memCanonical
  fontInside := h.fontInside
  faultedIff := iff_of_true rfl hshown.kind_ne_none
  clearRecord := fun hkind => absurd hkind hshown.kind_ne_none
  faultAtPC := fun _ => rfl
  addrOnlyForMemory := fun hkind => by
    cases hshown with
    | outside _ a => exact absurd rfl hkind
    | _ => rfl
  addrOutside := fun hkind => by
    cases hshown with
    | outside _ a => exact (le_max_right _ _).trans (oobError_firstOOB_toNat a).ge
    | _ => cases hkind
  overflowFull := fun hkind => by
    cases hshown with
    | overflow nnn hsp => exact ⟨hsp, nnn, rfl⟩
    | _ => cases hkind
  underflowEmpty := fun hkind => by
    cases hshown with
    | underflow hsp => exact ⟨hsp, rfl⟩
    | _ => cases hkind
  illegalWord := fun hkind => by
    cases hshown with
    | illegal _ hill => exact hill
    | _ => cases hkind

/-- The invariant speaks of memory, the font, the run state and its record, PC and SP alone. -/
theorem congr {t : State} (h : s.Inv) (hmem : t.mem.wf = true) (hfont : t.fontBase.toNat ≤ 4016)
    (hrun : t.runState = s.runState) (hfault : t.fault = s.fault) (hPC : t.PC = s.PC) (hSP : t.SP = s.SP) : t.Inv where
  memCanonical := hmem
  fontInside := hfont
  faultedIff := by rw [hrun, hfault]; exact h.faultedIff
  clearRecord := by rw [hfault]; exact h.clearRecord
  faultAtPC := by rw [hrun, hfault, hPC]; exact h.faultAtPC
  addrOnlyForMemory := by rw [hfault]; exact h.addrOnlyForMemory
  addrOutside := by rw [hfault]; exact h.addrOutside
  overflowFull := by rw [hfault, hSP]; exact h.overflowFull
  underflowEmpty := by rw [hfault, hSP]; exact h.underflowEmpty
  illegalWord := by rw [hfault]; exact h.illegalWord

end State.Inv

/-- The two ways a step in AWAIT_KEY can end. -/
theorem resumeWait_cases {cfg : Params} (s : State cfg) :
    (s.keyValid = true ∧ s.resumeWait = (s.setReg s.waitX s.keyByte).endWait) ∨
    (s.keyValid = false ∧ s.resumeWait = s) := by
  cases h : s.keyValid with
  | true => exact .inl ⟨rfl, if_pos h⟩
  | false => exact .inr ⟨rfl, if_neg (by rw [h]; decide)⟩

theorem inv_resumeWait {s : State} (h : s.Inv) (hs : s.runState = .awaitKey) : s.resumeWait.Inv := by
  rcases resumeWait_cases s with ⟨_, hres⟩ | ⟨_, hres⟩ <;> rw [hres]
  · exact .of_not_faulted h.memCanonical h.fontInside nofun (h.clear_of_not_faulted (by rw [hs]; decide))
  · exact h

/-- A step keeps the invariant: FAULTED it changes nothing, awaiting a key it writes a register at most, and running it
takes an error that its state shows or none. -/
theorem step_keeps_inv {s t : State} (h : s.Inv) (hstep : step s = .next t) : t.Inv := by
  cases hs : s.runState with
  | faulted =>
    cases (stepBy_faulted hs).symm.trans hstep
    exact h
  | awaitKey =>
    cases (stepBy_awaitKey hs).symm.trans hstep
    exact inv_resumeWait h hs
  | running =>
    rcases step_error_or_keeps hs hstep with ⟨w, e, hshown, rfl⟩ | ⟨hfault, hrun, hmem, hfont⟩
    · exact h.takeError hshown
    · exact .of_not_faulted (hmem h.memCanonical) (hfont ▸ h.fontInside) hrun
        (hfault.trans (h.clear_of_not_faulted (by rw [hs]; decide)))

/-- Settles O19: `step_keeps_inv`. -/
theorem stepKeepsTheInvariant : Obligations.StepKeepsTheInvariant := by
  unfold Obligations.StepKeepsTheInvariant
  intro s t
  exact step_keeps_inv

/-- Settles O18: after RESET the engine runs and the record is clear. -/
theorem resetMeetsTheInvariant : Obligations.ResetMeetsTheInvariant :=
  .of_not_faulted (by decide) (by decide) (by decide) rfl

end Sys2Proof.Machine

/-! ### Host transactions and sessions (60_exceptions.md section 4) -/

namespace Sys2Proof.Machine

/-- Everything a transaction can do to state `s`. -/
inductive TransactionEffect (s : State) : Transaction → State → Prop where
  | reset : TransactionEffect s .reset s.restarted
  | step {t : State} : step s = .next t → TransactionEffect s .step t
  | tick : TransactionEffect s .tick s.tick
  | memory {tr : Transaction} (m : Memory) (b : Word) : (s.mem.wf = true → m.wf = true) →
      (b = s.fontBase ∨ b.toNat ≤ 4016) → TransactionEffect s tr { s with mem := m, fontBase := b }
  | latch {tr : Transaction} (valid : Bool) (key : Fin 16) :
      TransactionEffect s tr { s with keyValid := valid, keyValue := key }
  | nothing {tr : Transaction} : TransactionEffect s tr s

theorem load_effect (s : State) (addr : Nat) (bs : List Byte) :
    TransactionEffect s (.load addr bs) (s.load addr bs).1 := by
  rcases load_cases s addr bs with ⟨_, _, h⟩ | ⟨hroom, h⟩ <;> rw [h]
  · exact .nothing
  · refine .memory _ s.fontBase (fun hm => ?_) (.inl rfl)
    rcases hroom with h0 | hroom
    · rw [List.length_eq_zero_iff.1 h0]
      exact hm
    · exact Memory.wf_setMany bs hm hroom

theorem installFont_effect (s : State) (addr : Nat) (gs : List Byte) :
    TransactionEffect s (.installFont addr gs) (s.installFont addr gs).1 := by
  rcases installFont_cases s addr gs with ⟨_, h⟩ | ⟨hlen, hroom, h⟩ <;> rw [h]
  · exact .nothing
  · refine .memory _ _ (fun hm => Memory.wf_setMany gs hm ?_) (.inr ((Nat.mod_le _ _).trans hroom))
    rw [hlen]
    exact Nat.add_le_add_right hroom 80

theorem setKey_effect (s : State) (key : Option Nat) : TransactionEffect s (.setKey key) (s.setKey key).1 := by
  cases key with
  | none => exact .latch false 0
  | some k =>
    by_cases h : k < 16
    · rw [State.setKey, dif_pos h]
      exact .latch true ⟨k, h⟩
    · rw [State.setKey, dif_neg h]
      exact .nothing

/-- Every transaction answers, and the state it ends in is one of the effects above. -/
theorem transact_effect (tr : Transaction) (s : State) : ∃ p, transact tr s = .next p ∧ TransactionEffect s tr p.1 := by
  cases tr with
  | reset => exact ⟨_, rfl, .reset⟩
  | load addr bs => exact ⟨_, rfl, load_effect s addr bs⟩
  | installFont addr gs => exact ⟨_, rfl, installFont_effect s addr gs⟩
  | step =>
    obtain ⟨t, hstep⟩ := step_answers s
    exact ⟨_, transact_step hstep, .step hstep⟩
  | tick => exact ⟨_, rfl, .tick⟩
  | setKey key => exact ⟨_, rfl, setKey_effect s key⟩
  | readFramebuffer | readSoundTimer | inspect => exact ⟨_, rfl, .nothing⟩

/-- What a session keeps: a property that every one of its transactions keeps holds of the state it ends in. -/
theorem session_keeps {P : State → Prop} (trs : List Transaction)
    (hP : ∀ tr ∈ trs, ∀ s t, P s → TransactionEffect s tr t → P t) (s : State) (hs : P s) :
    ∃ t, session trs s = .next t ∧ P t := by
  induction trs generalizing s with
  | nil => exact ⟨s, rfl, hs⟩
  | cons tr trs ih =>
    obtain ⟨p, htr, he⟩ := transact_effect tr s
    obtain ⟨t, ht, hPt⟩ := ih (fun tr' h => hP tr' (List.mem_cons_of_mem _ h)) p.1 (hP tr List.mem_cons_self s p.1 hs he)
    exact ⟨t, by rw [session, htr]; exact ht, hPt⟩

/-- Settles O15: `step_answers` and `transact_effect`. -/
theorem everyTransactionCompletes : Obligations.EveryTransactionCompletes := by
  unfold Obligations.EveryTransactionCompletes
  refine ⟨step_answers, fun tr s => ?_⟩
  obtain ⟨p, htr, -⟩ := transact_effect tr s
  exact ⟨p, htr⟩

/-! ### The invariant along a session -/

theorem TransactionEffect.keeps_inv {tr : Transaction} {s t : State} (he : TransactionEffect s tr t) (h : s.Inv) :
    t.Inv := by
  cases he with
  | reset => exact .of_not_faulted rfl (Nat.zero_le _) nofun rfl
  | step hstep => exact step_keeps_inv h hstep
  | tick => exact h.congr h.memCanonical h.fontInside rfl rfl rfl rfl
  | memory m b hm hb =>
    refine h.congr (hm h.memCanonical) ?_ rfl rfl rfl rfl
    rcases hb with rfl | hb
    · exact h.fontInside
    · exact hb
  | latch => exact h.congr h.memCanonical h.fontInside rfl rfl rfl rfl
  | nothing => exact h

/-- Settles O20: each transaction keeps the invariant, so a session does. -/
theorem sessionKeepsTheInvariant : Obligations.SessionKeepsTheInvariant := by
  unfold Obligations.SessionKeepsTheInvariant
  intro trs s t hs hsession
  obtain ⟨u, hu, hinv⟩ := session_keeps trs (fun _ _ _ _ h he => he.keeps_inv h) s hs
  cases hu.symm.trans hsession
  exact hinv

/-! ### A session from FAULTED, without RESET -/

/-- What the host can change of a state without stepping or resetting it: memory and the font's base, the key latch, and
the timers downwards. -/
def HostChanged (s t : State) : Prop :=
  t = { s with DT := t.DT, ST := t.ST, mem := t.mem, keyValid := t.keyValid, keyValue := t.keyValue,
               fontBase := t.fontBase } ∧
  t.DT.toNat ≤ s.DT.toNat ∧ t.ST.toNat ≤ s.ST.toNat

theorem HostChanged.refl (s : State) : HostChanged s s := ⟨rfl, le_rfl, le_rfl⟩

theorem HostChanged.trans {s t u : State} (h : HostChanged s t) (h' : HostChanged t u) : HostChanged s u := by
  obtain ⟨ht, hDT, hST⟩ := h
  obtain ⟨hu, hDT', hST'⟩ := h'
  refine ⟨?_, hDT'.trans hDT, hST'.trans hST⟩
  rw [ht] at hu
  exact hu

theorem HostChanged.runState {s t : State} (h : HostChanged s t) : t.runState = s.runState := by
  rw [h.1]

theorem tickTimer_le (v : Byte) : (tickTimer v).toNat ≤ v.toNat := by
  rw [tickTimer_toNat]
  exact Nat.sub_le _ _

/-- While FAULTED, a step changes nothing, so every transaction but RESET is the host's. -/
theorem TransactionEffect.hostChanged {tr : Transaction} {s t : State} (he : TransactionEffect s tr t)
    (hs : s.runState = .faulted) (htr : tr ≠ .reset) : HostChanged s t := by
  cases he with
  | reset => exact absurd rfl htr
  | step hstep =>
    cases (stepBy_faulted hs).symm.trans hstep
    exact .refl s
  | tick => exact ⟨rfl, tickTimer_le s.DT, tickTimer_le s.ST⟩
  | memory | latch => exact ⟨rfl, le_rfl, le_rfl⟩
  | nothing => exact .refl s

/-- Settles O16: along the session the state stays one that the host alone has changed, so it stays FAULTED. -/
theorem faultedStaysUntilReset : Obligations.FaultedStaysUntilReset := by
  unfold Obligations.FaultedStaysUntilReset
  intro trs s hs htrs
  refine session_keeps (P := HostChanged s) trs ?_ s (.refl s)
  intro tr htr t u ht he
  exact ht.trans (he.hostChanged (ht.runState.trans hs) (htrs tr htr))

/-! ### RESET -/

/-- Settles O17: RESET answers `State.restarted`, read field by field. -/
theorem resetRestartsFromAnyState : Obligations.ResetRestartsFromAnyState := by
  unfold Obligations.ResetRestartsFromAnyState
  intro s
  exact ⟨s.restarted, rfl, rfl, rfl, rfl, rfl, rfl, rfl, rfl, rfl, rfl, rfl, rfl, State.reg_resetAt (cfg := Config.params),
    fun k => Vector.getElem_replicate k.isLt, Memory.get_nil, Grid.pixel_blank, rfl⟩

end Sys2Proof.Machine

/-! ### Returns, register skips and the offset jump (41_control_flow.md) -/

namespace Sys2Proof.Machine

/-! ### 00EE -/

/-- Settles O29: `exec_ret_ok`, whose slot is the one below SP, and `exec_ret_error`. -/
theorem returnPopsOrUnderflows : Obligations.ReturnPopsOrUnderflows := by
  unfold Obligations.ReturnPopsOrUnderflows
  intro s
  refine ⟨fun k hk => ?_, exec_ret_error s⟩
  have hbelow : s.SP.val - 1 = k.val := by omega
  refine ⟨_, exec_ret_ok s (by omega), rfl, ?_, hbelow⟩
  simp only [State.setPC_PC, hbelow]
  exact slot_eq s k.val k.isLt

/-! ### 5xy0 and 9xy0 -/

theorem exec_seReg_eq_setPC (x y : Reg) (s : State) :
    exec (.seReg x y) s = .next (s.setPC (if s.reg x = s.reg y then s.PC + 4#16 else s.PC + 2#16)) := by
  rw [exec_seReg, advance_skipIf]
  simp only [beq_iff_eq]

theorem exec_sneReg_eq_setPC (x y : Reg) (s : State) :
    exec (.sneReg x y) s = .next (s.setPC (if s.reg x = s.reg y then s.PC + 2#16 else s.PC + 4#16)) := by
  rw [exec_sneReg, advance_skipIf]
  simp only [bne_iff_ne, ne_eq, ite_not]

/-- Settles O31: the two skips write PC alone; with x = y their condition is decided, and the other low nibbles are
illegal words of ops 5 and 9. -/
theorem registerSkips : Obligations.RegisterSkips := by
  unfold Obligations.RegisterSkips
  intro x y s
  refine ⟨exec_seReg_eq_setPC x y s, exec_sneReg_eq_setPC x y s, (exec_seReg_eq_setPC x x s).trans (by rw [if_pos rfl]; rfl),
    (exec_sneReg_eq_setPC x x s).trans (by rw [if_pos rfl]; rfl), fun n hn => ⟨?_, ?_⟩⟩
  · exact (decode_formatXY_op5 x y n).trans (if_neg hn)
  · exact (decode_formatXY_op9 x y n).trans (if_neg hn)

/-! ### Bnnn -/

/-- The largest sum, 0xFFF + 0xFF, fits 16 bits. -/
theorem jumpOffset_toNat (nnn : Addr12) (v : Byte) : (jumpOffset nnn v).toNat = nnn.toNat + v.toNat := by
  have hnnn := nnn.isLt
  have hv := v.isLt
  simp only [jumpOffset, BitVec.toNat_add, zext16_toNat, BitVec.toNat_setWidth]
  omega

/-- Settles O32: `exec_jpV0` jumps to the sum `jumpOffset_toNat`, and above 4094 the next fetch faults. -/
theorem offsetJumpAddsVZero : Obligations.OffsetJumpAddsVZero := by
  unfold Obligations.OffsetJumpAddsVZero
  intro nnn s
  exact ⟨_, jumpOffset_toNat nnn (s.reg 0), exec_jpV0 nnn s, fun hs hpc =>
    step_outside_faults (s := s.setPC (jumpOffset nnn (s.reg v0))) hs hpc⟩

end Sys2Proof.Machine

/-! ### The step and the key wait (40_step_cycle.md section 1; 45_keys_timers.md) -/

namespace Sys2Proof.Machine

/-- Settles O7: the bytes at PC are the fetched word, so the step is `stepBy_decoded`. -/
theorem stepRunsDecodedInstruction : Obligations.StepRunsDecodedInstruction := by
  unfold Obligations.StepRunsDecodedInstruction
  intro s i hs hpc hdec
  exact stepBy_decoded hs ((fetch_eq_ok_iff s _).2 ⟨hpc, rfl⟩) hdec

theorem keyByte_toNat {cfg : Params} (s : State cfg) : s.keyByte.toNat = s.keyValue.val :=
  Nat.mod_eq_of_lt (s.keyValue.isLt.trans (by decide))

/-- A step that completes a wait: V[wait_x] holds the key, and the engine runs on. -/
theorem step_awaitKey_latched {s : State} (hs : s.runState = .awaitKey) (hk : s.keyValid = true) :
    step s = .next (s.setReg s.waitX s.keyByte).endWait := by
  rcases resumeWait_cases s with ⟨_, hres⟩ | ⟨hnone, _⟩
  · rw [← hres]
    exact stepBy_awaitKey hs
  · cases hk.symm.trans hnone

theorem step_awaitKey_none {s : State} (hs : s.runState = .awaitKey) (hk : s.keyValid = false) :
    step s = .next s := by
  rcases resumeWait_cases s with ⟨hlatched, _⟩ | ⟨_, hres⟩
  · cases hk.symm.trans hlatched
  · exact (stepBy_awaitKey hs).trans (congrArg _ hres)

/-- Settles O13: `step_awaitKey_latched` and `step_awaitKey_none`. -/
theorem awaitKeyStepCompletesTheWait : Obligations.AwaitKeyStepCompletesTheWait := by
  unfold Obligations.AwaitKeyStepCompletesTheWait
  intro s hs
  constructor
  · intro hk
    refine ⟨_, step_awaitKey_latched hs hk, rfl, rfl, ?_, fun r hr => State.reg_setReg_other s s.waitX r _ hr⟩
    exact (congrArg BitVec.toNat (State.reg_setReg_same s s.waitX s.keyByte)).trans (keyByte_toNat s)
  · intro hk
    exact ⟨step_awaitKey_none hs hk, (stepResult_eq_awaitingKey_iff s).2 hs⟩

/-! ### SET_KEY -/

theorem transact_setKey_some (s : State) (k : Fin 16) :
    transact (.setKey (some k.val)) s = .next ({ s with keyValid := true, keyValue := k }, .ok) :=
  congrArg Host.Outcome.next (dif_pos k.isLt)

theorem transact_setKey_rejected (s : State) {k : Nat} (h : 16 ≤ k) :
    transact (.setKey (some k)) s = .next (s, .rejected) :=
  congrArg Host.Outcome.next (dif_neg (not_lt.2 h))

/-- Settles O58: a key, none, and a number that is no key. -/
theorem setKeyWritesTheLatch : Obligations.SetKeyWritesTheLatch := by
  unfold Obligations.SetKeyWritesTheLatch
  intro s
  exact ⟨transact_setKey_some s, rfl, fun k => transact_setKey_rejected s⟩

/-! ### Fx0A -/

/-- The host's key ends a wait at the next step. -/
theorem session_setKey_step {s : State} (hs : s.runState = .awaitKey) (k : Fin 16) :
    ∃ u, session [.setKey (some k.val), .step] s = .next u ∧ u.runState = .running ∧ (u.reg s.waitX).toNat = k.val ∧
      u.PC = s.PC := by
  have hstep := step_awaitKey_latched (s := { s with keyValid := true, keyValue := k }) hs rfl
  have hsession : session [.setKey (some k.val), .step] s = step { s with keyValid := true, keyValue := k } := by
    simp only [session, transact_setKey_some, transact_step hstep, hstep]
  exact ⟨_, hsession.trans hstep, rfl,
    (congrArg BitVec.toNat (State.reg_setReg_same _ s.waitX _)).trans (keyByte_toNat _), rfl⟩

/-- Settles O56: Fx0A with a key is a write of V[x]; without one it begins the wait that `session_setKey_step` ends. -/
theorem keyWaitStoresTheKey : Obligations.KeyWaitStoresTheKey := by
  unfold Obligations.KeyWaitStoresTheKey
  intro x s hs
  constructor
  · intro hk
    obtain ⟨t, hexec, hframe, hx, hother⟩ := exec_setReg_outcome (exec_ldXK_latched x s hk)
    exact ⟨t, hexec, hframe, by rw [hx, keyByte_toNat], hother⟩
  · intro hk
    exact ⟨_, exec_ldXK_none x s hk, rfl, fun k hlt => session_setKey_step rfl ⟨k, hlt⟩⟩

/-! ### Ex9E and ExA1 -/

theorem keyMatch_eq_true_iff {cfg : Params} (s : State cfg) (v : Byte) :
    s.keyMatch v = true ↔ s.keyValid = true ∧ v.toNat = s.keyValue.val := by
  simp [State.keyMatch]

theorem exec_skp_eq_setPC (x : Reg) (s : State) :
    exec (.skp x) s = .next (s.setPC (if s.keyMatch (s.reg x) then s.PC + 4#16 else s.PC + 2#16)) := by
  rw [exec_skp, advance_skipIf]

theorem exec_sknp_eq_setPC (x : Reg) (s : State) :
    exec (.sknp x) s = .next (s.setPC (if s.keyMatch (s.reg x) then s.PC + 2#16 else s.PC + 4#16)) := by
  rw [exec_sknp, advance_skipIf]
  cases s.keyMatch (s.reg x) <;> rfl

/-- Settles O54: both skips ask `keyMatch`, which is the two clauses' condition. -/
theorem keySkips : Obligations.KeySkips := by
  unfold Obligations.KeySkips
  intro x s
  rw [exec_skp_eq_setPC, exec_sknp_eq_setPC]
  constructor
  · intro hvalid hkey
    rw [(keyMatch_eq_true_iff s _).2 ⟨hvalid, hkey⟩]
    exact ⟨rfl, rfl⟩
  · intro hno
    have hmatch : s.keyMatch (s.reg x) = false := by
      rw [← Bool.not_eq_true, keyMatch_eq_true_iff, not_and_or, Bool.not_eq_true]
      exact hno
    rw [hmatch]
    exact ⟨rfl, rfl⟩

/-! ### The timers -/

/-- Settles O55: a write of V[x], and of each timer. -/
theorem timerCopies : Obligations.TimerCopies := by
  unfold Obligations.TimerCopies
  intro x s
  exact ⟨exec_setReg_outcome (exec_ldXDT x s), exec_ldDTX x s, exec_ldSTX x s⟩

end Sys2Proof.Machine

/-! ### What no instruction reads: the sound timer and the stale stack slots (45_keys_timers.md; 10_state.md section 6) -/

namespace Sys2Proof.Machine

/-- `s` with other stack slots and another sound timer. -/
def State.withUnread (s : State) (st : Vector Word Config.stackDepth) (v : Byte) : State := { s with stack := st, ST := v }

/-- The instructions that use the stack or write the sound timer. -/
def usesStackOrSound : Instr → Bool
  | .ret | .call _ | .ldSTX _ => true
  | _ => false

/-- An instruction that uses neither does the same whatever they hold. -/
theorem exec_withUnread {i : Instr} (hi : usesStackOrSound i = false) (s : State) (st : Vector Word Config.stackDepth)
    (v : Byte) : ∃ t, exec i s = .next t ∧ exec i (s.withUnread st v) = .next (t.withUnread st v) := by
  by_cases hk : 0 < i.touchedBytes ∧ Config.memSize < s.base + i.touchedBytes
  · exact ⟨_, exec_outside_takes_oobError hk.1 hk.2, exec_outside_takes_oobError (s := s.withUnread st v) hk.1 hk.2⟩
  have hroom : i.touchedBytes = 0 ∨ s.base + i.touchedBytes ≤ Config.memSize := by omega
  cases i
  case ret | call | ldSTX => cases hi
  case drw x y n => exact ⟨_, exec_drw_ok x y n s hroom, exec_drw_ok x y n (s.withUnread st v) hroom⟩
  case ldBX x =>
    have hroom := hroom.resolve_left (Nat.succ_ne_zero 2)
    exact ⟨_, exec_ldBX_ok x s hroom, exec_ldBX_ok x (s.withUnread st v) hroom⟩
  case ldMemX x =>
    have hroom := hroom.resolve_left (Nat.succ_ne_zero x.val)
    exact ⟨_, exec_ldMemX_ok x s hroom, exec_ldMemX_ok x (s.withUnread st v) hroom⟩
  case ldXMem x =>
    have hroom := hroom.resolve_left (Nat.succ_ne_zero x.val)
    exact ⟨_, exec_ldXMem_ok x s hroom, exec_ldXMem_ok x (s.withUnread st v) hroom⟩
  case ldXK x =>
    cases hkey : s.keyValid with
    | true => exact ⟨_, exec_ldXK_latched x s hkey, exec_ldXK_latched x (s.withUnread st v) hkey⟩
    | false => exact ⟨_, exec_ldXK_none x s hkey, exec_ldXK_none x (s.withUnread st v) hkey⟩
  case seImm x nn => exact ⟨_, exec_seImm_eq_setPC x nn s, exec_seImm_eq_setPC x nn (s.withUnread st v)⟩
  case sneImm x nn => exact ⟨_, exec_sneImm_eq_setPC x nn s, exec_sneImm_eq_setPC x nn (s.withUnread st v)⟩
  case seReg x y => exact ⟨_, exec_seReg_eq_setPC x y s, exec_seReg_eq_setPC x y (s.withUnread st v)⟩
  case sneReg x y => exact ⟨_, exec_sneReg_eq_setPC x y s, exec_sneReg_eq_setPC x y (s.withUnread st v)⟩
  case skp x => exact ⟨_, exec_skp_eq_setPC x s, exec_skp_eq_setPC x (s.withUnread st v)⟩
  case sknp x => exact ⟨_, exec_sknp_eq_setPC x s, exec_sknp_eq_setPC x (s.withUnread st v)⟩
  all_goals exact ⟨_, rfl, rfl⟩

/-- It writes neither, and not SP. -/
theorem Effect.keeps_unread {i : Instr} {s t : State} (h : Effect i s t) (hi : usesStackOrSound i = false) :
    t.stack = s.stack ∧ t.SP = s.SP ∧ t.ST = s.ST := by
  cases h with
  | ret he | call _ _ he | sound _ he =>
    rw [he] at hi
    cases hi
  | _ => exact ⟨rfl, rfl, rfl⟩

/-- The stack has a free slot, or is full. -/
theorem SP_lt_or_full {cfg : Params} (s : State cfg) : s.SP.val < Config.stackDepth ∨ s.SP.val = Config.stackDepth :=
  (Nat.lt_succ_iff.1 s.SP.isLt).lt_or_eq

/-- A relation that every way a step can end preserves is preserved by the step: related states fetch the same word. -/
theorem step_related {R : State → State → Prop} {s s' t : State} (hrun : s'.runState = s.runState)
    (hfetch : fetch s' = fetch s) (hkey : s'.keyValid = s.keyValid) (hstay : R s s')
    (hresume : R (s.setReg s.waitX s.keyByte).endWait (s'.setReg s'.waitX s'.keyByte).endWait)
    (herr : ∀ w e, R (s.takeError w e) (s'.takeError w e))
    (hexec : ∀ i, ∃ t t', exec i s = .next t ∧ exec i s' = .next t' ∧ R t t') (h : step s = .next t) :
    ∃ t', step s' = .next t' ∧ R t t' := by
  cases hs : s.runState with
  | faulted =>
    cases (stepBy_faulted hs).symm.trans h
    exact ⟨_, stepBy_faulted (hrun.trans hs), hstay⟩
  | awaitKey =>
    cases hk : s.keyValid with
    | true =>
      cases (step_awaitKey_latched hs hk).symm.trans h
      exact ⟨_, step_awaitKey_latched (hrun.trans hs) (hkey.trans hk), hresume⟩
    | false =>
      cases (step_awaitKey_none hs hk).symm.trans h
      exact ⟨_, step_awaitKey_none (hrun.trans hs) (hkey.trans hk), hstay⟩
  | running =>
    cases hf : fetch s with
    | error e =>
      cases (stepBy_fetch_error hs hf).symm.trans h
      exact ⟨_, stepBy_fetch_error (hrun.trans hs) (hfetch.trans hf), herr _ e⟩
    | ok w =>
      cases hd : decode w with
      | error r =>
        cases (stepBy_illegal hs hf hd).symm.trans h
        exact ⟨_, stepBy_illegal (hrun.trans hs) (hfetch.trans hf) hd, herr w _⟩
      | ok i =>
        obtain ⟨u, t', hu, ht', hR⟩ := hexec i
        cases hu.symm.trans ((stepBy_decoded hs hf hd).symm.trans h)
        exact ⟨t', (stepBy_decoded (hrun.trans hs) (hfetch.trans hf) hd).trans ht', hR⟩

/-! ### ST -/

/-- The states differ in ST alone. -/
def DifferInST (s s' : State) : Prop := ∃ v, s' = { s with ST := v }

theorem exec_differInST (i : Instr) (s : State) (v : Byte) :
    ∃ t t', exec i s = .next t ∧ exec i { s with ST := v } = .next t' ∧ DifferInST t t' := by
  cases hi : usesStackOrSound i with
  | false =>
    obtain ⟨t, ht, ht'⟩ := exec_withUnread hi s s.stack v
    obtain ⟨hstack, -, -⟩ := (effect_of_exec ht).keeps_unread hi
    exact ⟨t, _, ht, ht', v, by rw [← hstack]; rfl⟩
  | true =>
    cases i
    case ret =>
      by_cases hsp : s.SP.val = 0
      · exact ⟨_, _, exec_ret_error s hsp, exec_ret_error { s with ST := v } hsp, v, rfl⟩
      · have hsp := Nat.pos_of_ne_zero hsp
        exact ⟨_, _, exec_ret_ok s hsp, exec_ret_ok { s with ST := v } hsp, v, rfl⟩
    case call nnn =>
      rcases SP_lt_or_full s with hsp | hsp
      · exact ⟨_, _, exec_call_ok nnn s hsp, exec_call_ok nnn { s with ST := v } hsp, v, rfl⟩
      · exact ⟨_, _, exec_call_error nnn s hsp, exec_call_error nnn { s with ST := v } hsp, v, rfl⟩
    case ldSTX x => exact ⟨_, _, exec_ldSTX x s, exec_ldSTX x { s with ST := v }, s.reg x, rfl⟩
    all_goals cases hi

/-- Settles O25: `step_related` for states that differ in ST alone. -/
theorem noInstructionReadsSoundTimer : Obligations.NoInstructionReadsSoundTimer := by
  unfold Obligations.NoInstructionReadsSoundTimer
  intro s t v hstep
  obtain ⟨t', ht', u, rfl⟩ := step_related (R := DifferInST) (s := s) (s' := { s with ST := v }) rfl rfl rfl
    ⟨v, rfl⟩ ⟨v, rfl⟩ (fun _ _ => ⟨v, rfl⟩) (fun i => exec_differInST i s v) hstep
  exact ⟨u, ht'⟩

/-! ### Stale stack slots -/

/-- The states differ in stack slots at SP and above alone. -/
def DifferInStale (s s' : State) : Prop :=
  ∃ st, s' = { s with stack := st } ∧ ∀ j : Fin 16, j.val < s.SP.val → st[j] = s.stack[j]

theorem exec_differInStale (i : Instr) (s : State) {st : Vector Word Config.stackDepth}
    (hlive : ∀ j : Fin 16, j.val < s.SP.val → st[j] = s.stack[j]) :
    ∃ t t', exec i s = .next t ∧ exec i { s with stack := st } = .next t' ∧ DifferInStale t t' := by
  cases hi : usesStackOrSound i with
  | false =>
    obtain ⟨t, ht, ht'⟩ := exec_withUnread hi s st s.ST
    obtain ⟨hstack, hSP, hST⟩ := (effect_of_exec ht).keeps_unread hi
    refine ⟨t, _, ht, ht', st, by rw [← hST]; rfl, ?_⟩
    rwa [hstack, hSP]
  | true =>
    cases i
    case ret =>
      by_cases hsp : s.SP.val = 0
      · exact ⟨_, _, exec_ret_error s hsp, exec_ret_error { s with stack := st } hsp, st, rfl, hlive⟩
      · have hsp := Nat.pos_of_ne_zero hsp
        have htop : s.SP.val - 1 < Config.stackDepth := by have := s.SP.isLt; simp only [Config.stackDepth]; omega
        have hslot : State.slot { s with stack := st } (s.SP.val - 1) = s.slot (s.SP.val - 1) := by
          rw [slot_eq _ _ htop, slot_eq _ _ htop]
          exact hlive ⟨_, htop⟩ (Nat.sub_lt hsp one_pos)
        refine ⟨_, _, exec_ret_ok s hsp, exec_ret_ok { s with stack := st } hsp, st, ?_,
          fun j hj => hlive j (hj.trans_le (Nat.sub_le _ _))⟩
        rw [hslot]
        rfl
    case call nnn =>
      rcases SP_lt_or_full s with hsp | hsp
      · refine ⟨_, _, exec_call_ok nnn s hsp, exec_call_ok nnn { s with stack := st } hsp, _, rfl, fun j hj => ?_⟩
        have hj : j.val = s.SP.val ∨ j.val < s.SP.val := (Nat.lt_succ_iff_lt_or_eq.1 hj).symm
        refine (getElem_pushed_stack { s with stack := st } _ hsp j).trans
          (Eq.trans ?_ (getElem_pushed_stack s _ hsp j).symm)
        rcases hj with hj | hj
        · rw [if_pos hj, if_pos hj]
        · rw [if_neg hj.ne, if_neg hj.ne]
          exact hlive j hj
      · exact ⟨_, _, exec_call_error nnn s hsp, exec_call_error nnn { s with stack := st } hsp, st, rfl, hlive⟩
    case ldSTX x => exact ⟨_, _, exec_ldSTX x s, exec_ldSTX x { s with stack := st }, st, rfl, hlive⟩
    all_goals cases hi

/-- Settles O26: `step_related` for states that differ in stale slots alone, as a slot at SP or above is. -/
theorem staleStackSlotsAreNotRead : Obligations.StaleStackSlotsAreNotRead := by
  unfold Obligations.StaleStackSlotsAreNotRead
  intro s t k v hk hstep
  have hlive : ∀ j : Fin 16, j.val < s.SP.val → (s.stack.set k.val v k.isLt)[j] = s.stack[j] := fun j hj =>
    Vector.getElem_set_ne k.isLt j.isLt (by omega)
  obtain ⟨t', ht', st, rfl, hst⟩ := step_related (R := DifferInStale) (s := s)
    (s' := { s with stack := s.stack.set k.val v k.isLt }) rfl rfl rfl ⟨_, rfl, hlive⟩ ⟨_, rfl, hlive⟩
    (fun _ _ => ⟨_, rfl, hlive⟩) (fun i => exec_differInStale i s hlive) hstep
  exact ⟨st, ht', hst⟩

end Sys2Proof.Machine

/-! ### Subtractions, shifts and the random byte (42_alu.md sections 2 and 3) -/

namespace Sys2Proof.Machine

/-! ### The ALU functions -/

theorem subMod_toNat (a b : Byte) : (subMod a b).toNat = (a.toNat + 256 - b.toNat) % 256 := BitVec.toNat_ofNat _ _

theorem subMod_eq_sub (a b : Byte) : subMod a b = a - b := by
  apply BitVec.eq_of_toNat_eq
  rw [subMod_toNat]
  bv_omega

theorem flagByte_eq_one_iff (c : Bool) : flagByte c = 1#8 ↔ c = true := by
  cases c <;> decide

theorem flagByte_toNat (c : Bool) : (flagByte c).toNat = c.toNat := by
  cases c <;> rfl

/-- The flag of `a - b` in either sense of `SUB_FLAG_SENSE`. -/
theorem subFlag_borrowOut_iff (sense : SubFlagSense) (a b : Byte) :
    subFlag sense (borrowOut a b) = true ↔ match sense with
      | .borrow => a.toNat < b.toNat
      | .notBorrow => b.toNat ≤ a.toNat := by
  cases sense with
  | borrow => simp [subFlag, borrowOut]
  | notBorrow => simp [subFlag, borrowOut]

theorem half_toNat (v : Byte) : (BitVec.ofNat 8 (v.toNat / 2)).toNat = v.toNat / 2 :=
  Nat.mod_eq_of_lt ((Nat.div_le_self _ _).trans_lt v.isLt)

theorem double_toNat (v : Byte) : (BitVec.ofNat 8 (v.toNat * 2)).toNat = v.toNat * 2 % 256 := BitVec.toNat_ofNat _ _

theorem shiftedOutRight_toNat (v : Byte) : (flagByte (shiftedOutRight v)).toNat = v.toNat % 2 := by
  rw [flagByte_toNat, shiftedOutRight, BitVec.getLsbD, Nat.testBit_zero]
  rcases Nat.mod_two_eq_zero_or_one v.toNat with h | h <;> simp [h]

theorem shiftedOutLeft_toNat (v : Byte) : (flagByte (shiftedOutLeft v)).toNat = v.toNat / 128 := by
  have hv := v.isLt
  rw [flagByte_toNat, shiftedOutLeft, BitVec.getLsbD, Nat.testBit_eq_decide_div_mod_eq]
  rcases (by omega : v.toNat / 128 = 0 ∨ v.toNat / 128 = 1) with h | h <;> simp [h]

/-! ### The write-back and the shifts at any parameters -/

/-- `exec_writeAlu_outcome` at any parameters. -/
theorem execAt_writeAlu_outcome {cfg : Params} {i : Instr} {s : State cfg} {x : Reg} {out : AluOut}
    (h : execAt i s = .next ((s.setPC (incPC s.PC)).writeAlu x out)) :
    ∃ t, execAt i s = .next t ∧ t = { s with PC := s.PC + 2#16, V := t.V } ∧
      t.reg x = out.1 ∧ (∀ r, r ≠ x → r ≠ 15 → t.reg r = s.reg r) ∧
      (x ≠ 15 → t.reg 15 = out.2.elim (s.reg 15) flagByte) :=
  ⟨_, h, State.writeAlu_eq_with_V _ x out, State.reg_writeAlu_same _ x out,
    fun _ hx hvF => State.reg_writeAlu_other _ out hx hvF, State.reg_writeAlu_vF _ out⟩

/-- 8xy6 shifts the register `SHIFT_SOURCE` names. -/
theorem execAt_shr_outcome {cfg : Params} (x y : Reg) (s : State cfg) {v : Byte}
    (hv : v = shiftOperand cfg.shiftSource (s.reg x) (s.reg y)) :
    ∃ t, execAt (.shr x y) s = .next t ∧ t = { s with PC := s.PC + 2#16, V := t.V } ∧
      (t.reg x).toNat = v.toNat / 2 ∧ (∀ r, r ≠ x → r ≠ 15 → t.reg r = s.reg r) ∧
      (x ≠ 15 → (t.reg 15).toNat = v.toNat % 2) := by
  obtain ⟨t, hexec, hframe, hx, hother, hvF⟩ :=
    execAt_writeAlu_outcome (out := aluShr cfg.shiftSource (s.reg x) (s.reg y)) (execAt_shr x y s)
  refine ⟨t, hexec, hframe, ?_, hother, fun h15 => ?_⟩
  · rw [hx, hv]
    exact half_toNat _
  · rw [hvF h15, hv]
    exact shiftedOutRight_toNat _

/-- 8xyE shifts the register `SHIFT_SOURCE` names. -/
theorem execAt_shl_outcome {cfg : Params} (x y : Reg) (s : State cfg) {v : Byte}
    (hv : v = shiftOperand cfg.shiftSource (s.reg x) (s.reg y)) :
    ∃ t, execAt (.shl x y) s = .next t ∧ t = { s with PC := s.PC + 2#16, V := t.V } ∧
      (t.reg x).toNat = v.toNat * 2 % 256 ∧ (∀ r, r ≠ x → r ≠ 15 → t.reg r = s.reg r) ∧
      (x ≠ 15 → (t.reg 15).toNat = v.toNat / 128) := by
  obtain ⟨t, hexec, hframe, hx, hother, hvF⟩ :=
    execAt_writeAlu_outcome (out := aluShl cfg.shiftSource (s.reg x) (s.reg y)) (execAt_shl x y s)
  refine ⟨t, hexec, hframe, ?_, hother, fun h15 => ?_⟩
  · rw [hx, hv]
    exact double_toNat _
  · rw [hvF h15, hv]
    exact shiftedOutLeft_toNat _

/-! ### At the decided parameters -/

/-- Settles O37: the write-back of `aluSub`, whose flag is the borrow, both ways round. -/
theorem subtractsSetBorrow : Obligations.SubtractsSetBorrow := by
  unfold Obligations.SubtractsSetBorrow
  intro x y s
  constructor
  · obtain ⟨t, hexec, hframe, hx, hvF, hother⟩ :=
      exec_writeAlu_outcome (out := aluSub .borrow (s.reg x) (s.reg y)) (exec_sub x y s)
    exact ⟨t, hexec, hframe, by rw [hx]; exact subMod_toNat _ _, fun h15 => (hvF h15).trans (flagByte_decide _), hother⟩
  · obtain ⟨t, hexec, hframe, hx, hvF, hother⟩ :=
      exec_writeAlu_outcome (out := aluSubn .borrow (s.reg x) (s.reg y)) (exec_subn x y s)
    exact ⟨t, hexec, hframe, by rw [hx]; exact subMod_toNat _ _, fun h15 => (hvF h15).trans (flagByte_decide _), hother⟩

/-- Settles O38: at the decided parameters the shifted register is V[x]. -/
theorem shiftsSetShiftedOutBit : Obligations.ShiftsSetShiftedOutBit := by
  unfold Obligations.ShiftsSetShiftedOutBit
  intro x y s
  constructor
  · obtain ⟨t, hexec, hframe, hx, hother, hvF⟩ := execAt_shr_outcome x y s (v := s.reg x) rfl
    exact ⟨t, (execAt_eq_exec _ s).symm.trans hexec, hframe, hx, hvF, hother⟩
  · obtain ⟨t, hexec, hframe, hx, hother, hvF⟩ := execAt_shl_outcome x y s (v := s.reg x) rfl
    exact ⟨t, (execAt_eq_exec _ s).symm.trans hexec, hframe, hx, hvF, hother⟩

/-- Settles O41: one draw, then a write of V[x] with the masked byte. -/
theorem randomIsMaskedDraw : Obligations.RandomIsMaskedDraw := by
  unfold Obligations.RandomIsMaskedDraw
  intro x nn s
  have hx := State.reg_setReg_same (s.setPC (incPC s.PC)).drawn x (Config.randomByte s.draws &&& nn)
  refine ⟨_, exec_rnd x nn s, rfl, hx, fun hnn => ?_, fun r hr => State.reg_setReg_other _ x r _ hr⟩
  rw [hx, hnn, BitVec.and_zero]

end Sys2Proof.Machine

/-! ### The index register (43_index_memory.md, Fx1E and Fx29) -/

namespace Sys2Proof.Machine

theorem indexSum_toNat (i : Word) (a : Byte) : (indexSum i a).toNat = (i.toNat + a.toNat) % 65536 := by
  simp only [indexSum, BitVec.toNat_add, BitVec.toNat_setWidth, Nat.add_mod_mod]

theorem glyphAddr_toNat (b : Word) (a : Byte) : (glyphAddr b a).toNat = (b.toNat + 5 * a.toNat) % 65536 :=
  BitVec.toNat_ofNat _ _

/-- From a font base the invariant allows, no glyph address wraps. -/
theorem glyphAddr_toNat_of_le {b : Word} (a : Byte) (h : b.toNat ≤ 4016) :
    (glyphAddr b a).toNat = b.toNat + 5 * a.toNat := by
  have ha := a.isLt
  rw [glyphAddr_toNat]
  omega

/-- Settles O43: `exec_addIX`, whose index is the sum modulo 65536. -/
theorem indexAddWrapsAtSixteenBits : Obligations.IndexAddWrapsAtSixteenBits := by
  unfold Obligations.IndexAddWrapsAtSixteenBits
  intro x s
  exact ⟨_, indexSum_toNat s.I (s.reg x), exec_addIX x s⟩

/-- Settles O44: `exec_ldFX`, whose index is `glyphAddr`. -/
theorem glyphAddressIsFivePerGlyph : Obligations.GlyphAddressIsFivePerGlyph := by
  unfold Obligations.GlyphAddressIsFivePerGlyph
  intro x s
  exact ⟨_, glyphAddr_toNat s.fontBase (s.reg x), exec_ldFX x s, glyphAddr_toNat_of_le (s.reg x)⟩

end Sys2Proof.Machine

/-! ### Stores and loads over I (43_index_memory.md, Fx55 and Fx65; 20_memory.md section 6) -/

namespace Sys2Proof.Machine

/-- What a store in range leaves at each address: V[r] at `base + r`, and the old byte outside. -/
theorem exec_ldMemX_outcome {x : Reg} {s : State} (hwf : s.mem.wf = true) (hin : s.I.toNat + x.val ≤ 4095) :
    ∃ t, exec (.ldMemX x) s = .next t ∧ t = { s with PC := s.PC + 2#16, mem := t.mem } ∧
      (∀ r : Reg, r ≤ x → t.mem.get (s.base + r.val) = s.reg r) ∧
      ∀ a, a < s.base ∨ s.base + x.val < a → t.mem.get a = s.mem.get a := by
  have hroom : s.base + (x.val + 1) ≤ Config.memSize := Nat.succ_le_succ hin
  refine ⟨_, exec_ldMemX_ok x s hroom, rfl, fun r hr => get_setMany_regsUpTo s x r s.base hr hwf hroom, fun a ha => ?_⟩
  refine Memory.get_setMany_outside _ _ a _ (ha.imp_right fun h => ?_)
  rw [length_regsUpTo]
  exact h

/-- What a load in range leaves in each register. -/
theorem exec_ldXMem_outcome {x : Reg} {s : State} (hin : s.I.toNat + x.val ≤ 4095) :
    ∃ t, exec (.ldXMem x) s = .next t ∧ t = { s with PC := s.PC + 2#16, V := t.V } ∧
      ∀ r : Reg, t.reg r = if r ≤ x then s.mem.get (s.base + r.val) else s.reg r :=
  ⟨_, exec_ldXMem_ok x s (Nat.succ_le_succ hin), rfl, fun r => reg_loadRegs_getMany _ x r s.mem s.base⟩

/-- Settles O46: `exec_ldMemX_outcome` in range; out of it the error discards the store. -/
theorem registersAreStored : Obligations.RegistersAreStored := by
  unfold Obligations.RegistersAreStored
  intro x s hwf
  exact ⟨exec_ldMemX_outcome hwf, fun hout => ⟨_, exec_ldMemX_error x s (Nat.succ_le_succ hout), rfl, rfl⟩⟩

/-- Settles O47: `exec_ldXMem_outcome` in range; out of it the error discards the load. -/
theorem registersAreLoaded : Obligations.RegistersAreLoaded := by
  unfold Obligations.RegistersAreLoaded
  intro x s
  refine ⟨fun hin => ?_, fun hout => ⟨_, exec_ldXMem_error x s (Nat.succ_le_succ hout), rfl, rfl⟩⟩
  obtain ⟨t, hexec, hframe, hreg⟩ := exec_ldXMem_outcome hin
  exact ⟨t, hexec, hframe, fun r hr => (hreg r).trans (if_pos hr), fun r hr => (hreg r).trans (if_neg hr.not_ge)⟩

/-- Settles O48: the load reads the bytes the store left, from the same I. -/
theorem storeThenLoadRestoresRegisters : Obligations.StoreThenLoadRestoresRegisters := by
  unfold Obligations.StoreThenLoadRestoresRegisters
  intro x s bank hwf hin
  obtain ⟨t, hstore, hframe, hmem, -⟩ := exec_ldMemX_outcome hwf hin
  have hI : t.I = s.I := by rw [hframe]
  obtain ⟨u, hload, -, hreg⟩ := exec_ldXMem_outcome (x := x) (s := { t with V := bank }) (hI ▸ hin)
  refine ⟨t, u, hstore, hload, fun r => ?_⟩
  split_ifs with hr
  · rw [hreg r, if_pos hr, ← hmem r hr]
    exact congrArg (fun a : Word => t.mem.get (a.toNat + r.val)) hI
  · exact (hreg r).trans (if_neg hr)

/-- Settles O49: the two bytes at PC are those the store left there. -/
theorem storedCodeIsFetched : Obligations.StoredCodeIsFetched := by
  unfold Obligations.StoredCodeIsFetched
  intro x s pc r q hwf hin hpc hq hqx
  obtain ⟨t, hstore, -, hmem, -⟩ := exec_ldMemX_outcome hwf hin
  have hqx' : q.val ≤ x.val := hqx
  have hrx : r ≤ x := Fin.le_def.2 (by omega)
  refine ⟨t, hstore, (fetch_eq_ok_iff _ _).2 ⟨?_, ?_⟩⟩
  · show pc.toNat ≤ 4094
    omega
  · show _ = bigEndian (t.mem.get pc.toNat) (t.mem.get (pc.toNat + 1))
    have hpc' : pc.toNat + 1 = s.base + q.val := by rw [hpc, hq]; rfl
    rw [hpc', hmem q hqx, show pc.toNat = s.base + r.val from hpc, hmem r hrx]
    rfl

end Sys2Proof.Machine

/-! ### LOAD and INSTALL_FONT (60_exceptions.md section 4) -/

namespace Sys2Proof.Machine

/-- A range with no byte in it is never written out of memory, so a load that is taken keeps memory canonical and is read
back. -/
theorem setMany_of_room {m : Memory} {a : Nat} {bs : List Byte} (hm : m.wf = true)
    (h : bs = [] ∨ a + bs.length ≤ 4096) :
    (m.setMany a bs).wf = true ∧ ∀ (j : Nat) (hj : j < bs.length), (m.setMany a bs).get (a + j) = bs[j] := by
  rcases h with rfl | h
  · exact ⟨hm, nofun⟩
  · exact ⟨Memory.wf_setMany bs hm h, fun j hj => Memory.get_setMany_inside bs hm h hj⟩

theorem transact_load_ok (s : State) {a : Nat} {bs : List Byte} (h : bs = [] ∨ a + bs.length ≤ 4096) :
    transact (.load a bs) s = .next (s.setMem (s.mem.setMany a bs), .ok) := by
  rcases load_cases s a bs with ⟨hpos, hout, _⟩ | ⟨_, hload⟩
  · rcases h with rfl | h
    · cases hpos
    · exact absurd h (not_le.2 hout)
  · exact congrArg _ hload

theorem transact_load_outside (s : State) {a : Nat} {bs : List Byte} (hne : bs ≠ []) (h : 4096 < a + bs.length) :
    transact (.load a bs) s = .next (s, .memoryOutOfBounds) := by
  rcases load_cases s a bs with ⟨_, _, hload⟩ | ⟨hroom, _⟩
  · exact congrArg _ hload
  · exact absurd hroom (not_or.2 ⟨fun h0 => hne (List.length_eq_zero_iff.1 h0), not_le.2 h⟩)

/-- Settles O59: the load taken, whose memory `setMany_of_room` reads, and the load refused. -/
theorem loadCopiesAllOrNothing : Obligations.LoadCopiesAllOrNothing := by
  unfold Obligations.LoadCopiesAllOrNothing
  intro s addr bs hwf
  refine ⟨fun h => ?_, transact_load_outside s⟩
  obtain ⟨hwf', hget⟩ := setMany_of_room hwf h
  exact ⟨_, transact_load_ok s h, rfl, hwf', hget, fun a ha => Memory.get_setMany_outside _ _ a bs ha⟩

/-- `s` with a font installed. -/
def State.withFont (s : State) (addr : Nat) (gs : List Byte) : State :=
  { s with mem := s.mem.setMany addr gs, fontBase := BitVec.ofNat 16 addr }

theorem State.withFont_fontBase_toNat (s : State) {addr : Nat} (gs : List Byte) (h : addr ≤ 4016) :
    (s.withFont addr gs).fontBase.toNat = addr :=
  Nat.mod_eq_of_lt (h.trans_lt (by decide))

theorem transact_installFont_ok (s : State) {addr : Nat} {gs : List Byte} (hlen : gs.length = 80) (h : addr ≤ 4016) :
    transact (.installFont addr gs) s = .next (s.withFont addr gs, .ok) := by
  rcases installFont_cases s addr gs with ⟨hbad, _⟩ | ⟨_, _, hfont⟩
  · omega
  · exact congrArg _ hfont

theorem transact_installFont_refused (s : State) {addr : Nat} {gs : List Byte} (h : gs.length ≠ 80 ∨ 4016 < addr) :
    transact (.installFont addr gs) s = .next (s, .memoryOutOfBounds) := by
  rcases installFont_cases s addr gs with ⟨_, hfont⟩ | ⟨hlen, hroom, _⟩
  · exact congrArg _ hfont
  · omega

/-- Fx29 of glyph g points I at the glyph's first byte: five bytes a glyph. -/
theorem exec_ldFX_base {x : Reg} {s : State} (h : s.fontBase.toNat ≤ 4016) :
    ∃ u, exec (.ldFX x) s = .next u ∧ u.mem = s.mem ∧ u.base = s.fontBase.toNat + 5 * (s.reg x).toNat :=
  ⟨_, exec_ldFX x s, rfl, glyphAddr_toNat_of_le (s.reg x) h⟩

/-- Settles O60: the font's 80 bytes are read back by `setMany_of_room`, and a glyph's rows stand where Fx29 points. -/
theorem installFontRecordsBase : Obligations.InstallFontRecordsBase := by
  unfold Obligations.InstallFontRecordsBase
  intro s addr gs hwf
  refine ⟨fun hlen hroom => ?_, transact_installFont_refused s⟩
  obtain ⟨hwf', hget⟩ := setMany_of_room (a := addr) (bs := gs) hwf (.inr (by omega))
  have hbase := s.withFont_fontBase_toNat gs hroom
  refine ⟨_, transact_installFont_ok s hlen hroom, rfl, hbase, hwf', hget,
    fun a ha => Memory.get_setMany_outside _ _ a gs (hlen.symm ▸ ha), ?_⟩
  intro x g row h _ _ hx
  obtain ⟨u, hexec, hmem, hu⟩ := exec_ldFX_base (x := x) (hbase.trans_le hroom)
  refine ⟨u, hexec, ?_⟩
  rw [hmem, hu, hbase, show ((s.withFont addr gs).reg x).toNat = g from hx, Nat.add_assoc]
  exact hget _ h

end Sys2Proof.Machine

/-! ### Sprites (44_display.md, Dxyn), at any parameters -/

namespace Sys2Proof.Machine

/-- The pixels of a sprite read from memory at `a`: a 1 bit of row j, both coordinates wrapped. -/
theorem mem_spritePixels_getMany {w h : Nat} (hw : 0 < w) (hh : 0 < h) (cx cy : Nat) (m : Memory) (a n : Nat)
    (r : Fin h) (c : Fin w) :
    (r, c) ∈ spritePixels hw hh cx cy (m.getMany a n) ↔
      ∃ j b : Nat, j < n ∧ b < 8 ∧ r.val = (cy + j) % h ∧ c.val = (cx + b) % w ∧
        (m.get (a + j)).getLsbD (7 - b) = true := by
  rw [mem_spritePixels]
  constructor
  · rintro ⟨j, hj, hr, b, hb, hc, hbit⟩
    exact ⟨j, b, Memory.length_getMany m a n ▸ hj, hb, hr, hc, Memory.getElem_getMany m a n j hj ▸ hbit⟩
  · rintro ⟨j, b, hj, hb, hr, hc, hbit⟩
    have hj : j < (m.getMany a n).length := (Memory.length_getMany m a n).symm ▸ hj
    exact ⟨j, hj, hr, b, hb, hc, (Memory.getElem_getMany m a n j hj).symm ▸ hbit⟩

/-- A draw flips exactly the sprite's pixels, where the sprite meets no pixel twice. -/
theorem pixel_drawSprite_ne_iff {w h : Nat} (hw : 0 < w) (hh : 0 < h) (g : Grid w h) (cx cy : Nat) (rows : List Byte)
    (h8 : 8 ≤ w) (hl : rows.length ≤ h) (r : Fin h) (c : Fin w) :
    (drawSprite hw hh g cx cy rows).1.pixel r c ≠ g.pixel r c ↔ (r, c) ∈ spritePixels hw hh cx cy rows := by
  rw [(drawSprite_spec hw hh g cx cy rows h8 hl).1 r c]
  by_cases hmem : (r, c) ∈ spritePixels hw hh cx cy rows <;> simp [hmem]

/-- A draw reports a collision exactly when it turns a pixel off. -/
theorem drawSprite_collision_iff {w h : Nat} (hw : 0 < w) (hh : 0 < h) (g : Grid w h) (cx cy : Nat) (rows : List Byte)
    (h8 : 8 ≤ w) (hl : rows.length ≤ h) :
    (drawSprite hw hh g cx cy rows).2 = true ↔
      ∃ r c, g.pixel r c = true ∧ (drawSprite hw hh g cx cy rows).1.pixel r c = false := by
  have hflip := pixel_drawSprite_ne_iff hw hh g cx cy rows h8 hl
  rw [(drawSprite_spec hw hh g cx cy rows h8 hl).2, decide_eq_true_eq, Prod.exists]
  refine exists_congr fun r => exists_congr fun c => ?_
  rw [← hflip r c]
  cases g.pixel r c <;> simp

/-- Settles O52: `exec_drw_ok`, whose grid and flag are those of `drawSprite`; a sprite of at most 15 rows meets no pixel of
64 by 32 twice. -/
theorem drawXorsSpriteIntoFramebuffer : Obligations.DrawXorsSpriteIntoFramebuffer := by
  unfold Obligations.DrawXorsSpriteIntoFramebuffer
  intro x y n s hin
  have hlen : (s.mem.getMany s.base n.val).length ≤ Config.displayH := by
    rw [Memory.length_getMany]
    exact n.isLt.le.trans (by decide)
  refine ⟨_, exec_drw_ok x y n s hin, rfl, fun r c => ?_, ?_, ?_, fun r hr => State.reg_setFlag_other _ _ r hr⟩
  · exact (pixel_drawSprite_ne_iff _ _ s.fb _ _ _ (by decide) hlen r c).trans (mem_spritePixels_getMany ..)
  · refine Iff.trans ?_ (drawSprite_collision_iff _ _ s.fb _ _ _ (by decide) hlen)
    rw [State.setFlag_eq, ← vF, State.reg_setReg_same, flagByte_eq_one_iff]
  · rw [State.setFlag_eq, ← vF, State.reg_setReg_same]
    exact (Bool.eq_false_or_eq_true _).imp (congrArg flagByte) (congrArg flagByte)

/-- A pixel that is flipped by both of two draws or by neither ends as it was. -/
theorem eq_of_flipped_alike : ∀ u t s : Bool, (u ≠ t ↔ t ≠ s) → u = s := by
  decide

/-- Settles O53: both draws flip the same pixels, so a pixel the second turns off is one the first turned on. -/
theorem drawTwiceRestoresFramebuffer : Obligations.DrawTwiceRestoresFramebuffer := by
  unfold Obligations.DrawTwiceRestoresFramebuffer
  intro x y n s hx hy hin
  obtain ⟨t, ht, hframe, hflip, -, -, hreg⟩ := drawXorsSpriteIntoFramebuffer x y n s hin
  have hI : t.I = s.I := by rw [hframe]
  have hmem : t.mem = s.mem := by rw [hframe]
  obtain ⟨u, hu, -, hflip', hvF, -, -⟩ := drawXorsSpriteIntoFramebuffer x y n t (by rw [hI]; exact hin)
  have hsame (r : Fin 32) (c : Fin 64) : u.fb.pixel r c ≠ t.fb.pixel r c ↔ t.fb.pixel r c ≠ s.fb.pixel r c := by
    rw [hflip, hflip', hreg x hx, hreg y hy, hmem, State.base, State.base, hI]
  have hback : u.fb = s.fb := Grid.ext_pixel fun r c => eq_of_flipped_alike _ _ _ (hsame r c)
  refine ⟨t, u, ht, hu, hback, hvF.trans ?_⟩
  rw [hback]
  exact exists_congr fun r => exists_congr fun c => and_comm

end Sys2Proof.Machine

/-! ### The machine at any parameters (00_scope.md section 4) -/

namespace Sys2Proof.Machine

/-- The ALU functions that take a parameter, at both of its values. -/
theorem alu_bothWays (a b : Byte) :
    (aluSub .borrow a b).1 = a - b ∧ (aluSub .notBorrow a b).1 = a - b ∧
    (aluSub .borrow a b).2 = some (decide (a.toNat < b.toNat)) ∧
    (aluSub .notBorrow a b).2 = some (decide (b.toNat ≤ a.toNat)) ∧
    (∀ sense, aluSubn sense a b = aluSub sense b a) ∧
    (aluShr .x a b).1 = a >>> 1 ∧ (aluShl .x a b).1 = a <<< 1 ∧
    aluShr .y a b = aluShr .x b a ∧ aluShl .y a b = aluShl .x b a := by
  have hshr : BitVec.ofNat 8 (a.toNat / 2) = a >>> 1 := by
    apply BitVec.eq_of_toNat_eq
    rw [half_toNat, BitVec.toNat_ushiftRight, Nat.shiftRight_eq_div_pow, pow_one]
  have hshl : BitVec.ofNat 8 (a.toNat * 2) = a <<< 1 := by
    apply BitVec.eq_of_toNat_eq
    rw [double_toNat, BitVec.toNat_shiftLeft, Nat.shiftLeft_eq, pow_one]
  have hle : (!decide (a.toNat < b.toNat)) = decide (b.toNat ≤ a.toNat) := by
    rw [← decide_not, decide_eq_decide, not_lt]
  exact ⟨subMod_eq_sub a b, subMod_eq_sub a b, rfl, congrArg some hle, fun _ => rfl, hshr, hshl, rfl, rfl⟩

variable {cfg : Params}

theorem flagByte_le_one (c : Bool) : (flagByte c).toNat ≤ 1 := by
  rw [flagByte_toNat]
  exact Bool.toNat_le c

/-- A subtraction of `b` from `a` into V[x], at any parameters: the difference, and the flag in the sense
`SUB_FLAG_SENSE`. -/
theorem execAt_subtract {i : Instr} {s : State cfg} {x : Reg} (a b : Byte)
    (h : execAt i s = .next ((s.setPC (incPC s.PC)).writeAlu x (aluSub cfg.subFlagSense a b))) :
    ∃ t, execAt i s = .next t ∧ t = { s with PC := s.PC + 2#16, V := t.V } ∧
      t.reg x = a - b ∧ (∀ r, r ≠ x → r ≠ 15 → t.reg r = s.reg r) ∧
      (x ≠ 15 → (t.reg 15 = 1#8 ↔ match cfg.subFlagSense with
        | .borrow => a.toNat < b.toNat
        | .notBorrow => b.toNat ≤ a.toNat) ∧ (t.reg 15).toNat ≤ 1) := by
  obtain ⟨t, hexec, hframe, hx, hother, hvF⟩ := execAt_writeAlu_outcome h
  refine ⟨t, hexec, hframe, hx.trans (subMod_eq_sub a b), hother, fun h15 => ?_⟩
  rw [hvF h15]
  exact ⟨(flagByte_eq_one_iff _).trans (subFlag_borrowOut_iff _ a b), flagByte_le_one _⟩

/-- A sprite drawn at any parameters flips the pixels its 1 bits land on, on a display it does not meet itself on. -/
theorem execAt_drw_flips {x y : Reg} {n : Fin 16} {s : State cfg} (h8 : 8 ≤ cfg.displayW) (hn : n.val ≤ cfg.displayH)
    (hin : n.val = 0 ∨ s.I.toNat + n.val ≤ 4096) :
    ∃ t, execAt (.drw x y n) s = .next t ∧
      ∀ (r : Fin cfg.displayH) (c : Fin cfg.displayW), t.fb.pixel r c ≠ s.fb.pixel r c ↔
        ∃ j b : Nat, j < n.val ∧ b < 8 ∧ r.val = ((s.reg y).toNat + j) % cfg.displayH ∧
          c.val = ((s.reg x).toNat + b) % cfg.displayW ∧ (s.mem.get (s.base + j)).getLsbD (7 - b) = true := by
  have hlen : (s.mem.getMany s.base n.val).length ≤ cfg.displayH := (Memory.length_getMany ..).trans_le hn
  exact ⟨_, execAt_drw_ok x y n s hin, fun r c =>
    (pixel_drawSprite_ne_iff _ _ s.fb _ _ _ h8 hlen r c).trans (mem_spritePixels_getMany ..)⟩

/-- Settles O39: each parameter reaches the meaning that reads it, and at the decided values the machine is the fixed one. -/
theorem openParametersBothWays : Obligations.OpenParametersBothWays := by
  unfold Obligations.OpenParametersBothWays
  refine ⟨alu_bothWays, execAt_eq_exec, stepAt_eq_step, transactAt_eq_transact, fun cfg x y s => ?_⟩
  exact ⟨⟨s.restarted, rfl, rfl⟩, execAt_subtract _ _ (execAt_sub x y s), execAt_subtract _ _ (execAt_subn x y s),
    fun v hv => ⟨execAt_shr_outcome x y s hv, execAt_shl_outcome x y s hv⟩,
    fun nn => ⟨_, execAt_rnd x nn s, State.reg_setReg_same _ x _⟩, fun n => execAt_drw_flips⟩

end Sys2Proof.Machine
